-- ==== Sys2Proof/Word.lean ====
section
/-! DEFINITION. The values of the block: bytes, 16-bit words and 11-bit command words. All are unsigned (R8). -/

namespace Sys2Proof

/-- The accumulator, `crc_out` and every intermediate of the update: 16 bits (R20, R81). -/
abbrev Word := BitVec 16

/-- A message byte, `din[7:0]`: 8 bits, bit 0 least significant (R42). -/
abbrev Byte := BitVec 8

/-- A command word `CW[10:0] = {rst, init, din_valid, din[7:0]}` (R60). -/
abbrev CommandWord := BitVec 11

end Sys2Proof
end

