-- ==== Sys2Proof/Config.lean ====
section
/-! DEFINITION. The parameters of R7. Every one is fixed; there is no free value: the spec leaves no value of the block open
(93_implementation_defined.md). `N_INST`, the one open parameter, is the argument of `Machine.System`. -/

namespace Sys2Proof

/-- `ACC_WIDTH` and `OUT_WIDTH` (R7): the width of `crc` and of `crc_out`. -/
abbrev Config.accWidth : Nat := 16

/-- `DATA_WIDTH` (R7): the width of the input datum. -/
abbrev Config.dataWidth : Nat := 8

/-- The width of the command word (R60): `rst`, `init`, `din_valid` and the datum. -/
abbrev Config.commandWidth : Nat := 3 + Config.dataWidth

/-- `LEN_WIDTH` (R7): the width of the length argument of `compute_crc`, of the reference procedure only. -/
abbrev Config.lenWidth : Nat := 8

end Sys2Proof
end

