-- ==== Sys2Proof/Ports.lean ====
section
/-! DEFINITION. The sampled inputs of the block (R28), with the three levels a sampled input can have (R70). -/

namespace Sys2Proof

/-- The level of one input at a rising edge. `undef` is the undefined level of R70; the rule treats `X` and `Z` alike. -/
inductive Level where
  | low
  | high
  | undef
deriving DecidableEq, Repr

/-- The levels of the block's inputs at one rising edge of `clk` (R28). `din[i]` is bit `i` of the byte (R42). -/
structure Pins where
  rst : Level
  init : Level
  dinValid : Level
  din : Vector Level 8
deriving DecidableEq, Repr

end Sys2Proof
end

