-- ==== Sys2Proof/Syntax.lean ====
section
/-! DEFINITION. The five commands of the block, one constructor per row of the opcode table (R62). -/

namespace Sys2Proof

/-- A command, as decoded from one command word (R13, R62). The operand is the message byte (R63). -/
inductive Instr where
  | reset
  | initUpdate (b : Byte)
  | init
  | update (b : Byte)
  | nop
deriving DecidableEq, Repr

end Sys2Proof
end

