-- ==== Sys2Proof/Assembly.lean ====
section
/-! DEFINITION. The lines of a command sequence as a host writes them (R67), with the pseudo-instructions of R68. Operands are the
numerals of the text; `AsmLine.wf` in WellFormed.lean says which are bytes. -/

namespace Sys2Proof

/-- One line of a command sequence: a command of R67 or a pseudo-instruction of R68. -/
inductive AsmLine where
  | reset
  | nop
  | init
  | update (b : Nat)
  | initUpdate (b : Nat)
  | wait (k : Nat)
  | msg (bs : List Nat)
  | msgf (bs : List Nat)
  | bytes (bs : List Nat)
deriving DecidableEq, Repr

end Sys2Proof
end

