-- ==== Sys2Proof/WellFormed.lean ====
section
/-! DEFINITION. What is a well-formed command, table word and assembler line. -/

namespace Sys2Proof

/-- A numeral is a byte when it is from 0 to 255 (R63, R67). -/
def byteNumeral (n : Nat) : Bool := n < 2 ^ Config.dataWidth

/-- A number is a command word when it has 11 bits (R60). -/
def commandNumeral (n : Nat) : Bool := n < 2 ^ Config.commandWidth

/-- A command is well formed when its operand is a byte. The operand's type says so already: no command is ill formed (R65). -/
def Instr.wf : Instr → Bool
  | .reset => true
  | .initUpdate b => byteNumeral b.toNat
  | .init => true
  | .update b => byteNumeral b.toNat
  | .nop => true

/-- A line is well formed when each of its numerals is a byte (R67), and its list is not empty where R68 asks for `n >= 1`. -/
def AsmLine.wf : AsmLine → Bool
  | .reset => true
  | .nop => true
  | .init => true
  | .update b => byteNumeral b
  | .initUpdate b => byteNumeral b
  | .wait _ => true
  | .msg bs => bs.all byteNumeral
  | .msgf bs => !bs.isEmpty && bs.all byteNumeral
  | .bytes bs => !bs.isEmpty && bs.all byteNumeral

end Sys2Proof
end

