-- ==== Sys2Proof/Decode.lean ====
section
/-! DEFINITION. The decoder of R62, the encoder of R67, and the opcode table both are held against. Decoding is total on the 2^11
two-valued words (R65); sampled levels are rejected by name, by the undefined bits that decide (R70). -/

namespace Sys2Proof

/-! ## Command words -/

/-- Field `D` of a command word, `CW[7:0]` (R61): the byte operand (R63). -/
def dataField (cw : CommandWord) : Byte := cw.extractLsb' 0 8

/-- The decode of R62, with the priority `rst`, then `init`, then `din_valid` (R153). -/
def decode (cw : CommandWord) : Instr :=
  if cw.getLsbD 10 then .reset
  else if cw.getLsbD 9 then
    if cw.getLsbD 8 then .initUpdate (dataField cw) else .init
  else
    if cw.getLsbD 8 then .update (dataField cw) else .nop

/-- A command word from its fields `{R, I, V, D}` (R60). -/
def commandWord (r i v : Bool) (d : Byte) : CommandWord :=
  (BitVec.ofBool r).setWidth 11 <<< 10 ||| (BitVec.ofBool i).setWidth 11 <<< 9 ||| (BitVec.ofBool v).setWidth 11 <<< 8 |||
    d.setWidth 11

/-- The encoder of R67: every ignored field is encoded as 0. -/
def encode : Instr → CommandWord
  | .reset => commandWord true false false 0
  | .initUpdate b => commandWord false true true b
  | .init => commandWord false true false 0
  | .update b => commandWord false false true b
  | .nop => commandWord false false false 0

/-! ## The opcode table -/

/-- A row of R62's table: a word is of the row when `(CW & mask) == pattern`. -/
structure OpcodeRow where
  mnemonic : String
  pattern : CommandWord
  mask : CommandWord
deriving DecidableEq, Repr

/-- Whether a word is of a row, as R62's last sentence tests it. -/
def OpcodeRow.applies (row : OpcodeRow) (cw : CommandWord) : Bool := cw &&& row.mask == row.pattern

/-- The row of each command (R62). -/
def Instr.row : Instr → OpcodeRow
  | .reset => ⟨"RESET", 0x400, 0x400⟩
  | .initUpdate _ => ⟨"INIT_UPDATE", 0x300, 0x700⟩
  | .init => ⟨"INIT", 0x200, 0x700⟩
  | .update _ => ⟨"UPDATE", 0x100, 0x700⟩
  | .nop => ⟨"NOP", 0x000, 0x700⟩

/-- R62's table, in its order. -/
def opcodeTable : List OpcodeRow :=
  [Instr.row .reset, Instr.row (.initUpdate 0), Instr.row .init, Instr.row (.update 0), Instr.row .nop]

/-! ## Sampled levels -/

/-- The level of a driven bit. -/
def Level.ofBool : Bool → Level
  | false => .low
  | true => .high

/-- The levels a host drives to present a command word (R60, R61). -/
def Pins.ofWord (cw : CommandWord) : Pins where
  rst := .ofBool (cw.getLsbD 10)
  init := .ofBool (cw.getLsbD 9)
  dinValid := .ofBool (cw.getLsbD 8)
  din := #v[.ofBool (cw.getLsbD 0), .ofBool (cw.getLsbD 1), .ofBool (cw.getLsbD 2), .ofBool (cw.getLsbD 3),
    .ofBool (cw.getLsbD 4), .ofBool (cw.getLsbD 5), .ofBool (cw.getLsbD 6), .ofBool (cw.getLsbD 7)]

/-- The level of bit `n` of the command word (R61). There is no bit above bit 10; asked for one, it answers bit 10. -/
def Pins.level (p : Pins) (n : Nat) : Level :=
  if h : n < 8 then p.din[n]
  else if n = 8 then p.dinValid
  else if n = 9 then p.init
  else p.rst

/-- The bits that decide the command (R70): `R`; `I` and `V` when `R = 0`; `D` when `R = 0` and `V = 1`. The others are R64's
ignored bits. -/
def Pins.deciding (p : Pins) : List Nat :=
  match p.rst, p.dinValid with
  | .low, .high => [10, 9, 8, 7, 6, 5, 4, 3, 2, 1, 0]
  | .low, _ => [10, 9, 8]
  | _, _ => [10]

/-- The deciding bits at an undefined level (R70), highest first. -/
def Pins.undefinedDeciding (p : Pins) : List Nat :=
  p.deciding.filter fun n => p.level n = .undef

/-- The command word on the pins. A level that is not high reads as 0; that matters only for an undefined level on an ignored
bit, which has no effect (R64; log entry 8). -/
def Pins.word (p : Pins) : CommandWord :=
  commandWord (p.rst = .high) (p.init = .high) (p.dinValid = .high)
    (BitVec.ofFnLE fun i : Fin 8 => decide (p.din[i] = .high))

/-- The decode of sampled levels (R70): the command, or the undefined deciding bits. -/
def decodePins (p : Pins) : Except (List Nat) Instr :=
  match p.undefinedDeciding with
  | [] => .ok (decode p.word)
  | n :: ns => .error (n :: ns)

/-! ## Words as the opcode table numbers them -/

/-- The command word of a table word `w` of `nbits` bits, whose bits above `nbits` are 0; none where bits above `CW[10]` are set,
since the block samples eleven bits (R60; log entry 11). -/
def commandWordOfTable (nbits w : Nat) : Option CommandWord :=
  if commandNumeral (w % 2 ^ nbits) then some (BitVec.ofNat 11 (w % 2 ^ nbits)) else none

/-- What the decoder reads from a table word. -/
def decodeTableWord (nbits w : Nat) : Option Instr :=
  (commandWordOfTable nbits w).map decode

end Sys2Proof
end

