-- ==== Sys2Proof/Machine/State.lean ====
section
/-! DEFINITION. The state of one block, the host's moves, the reasons a step can stop, and the states after reset and power-on. -/

namespace Sys2Proof.Machine

/-- The content of the accumulator (R21): a 16-bit value, or `Unwritten` from power-on until the first seed load. -/
inductive Acc where
  | unwritten
  | val (v : Word)
deriving DecidableEq, Repr

/-- One move of the host (R181). The block has no program counter (R24): what it does next is the host's choice (R142). -/
inductive HostMove where
  /-- A rising edge of `clk` with these levels on the inputs (R60). -/
  | edge (pins : Pins)
  /-- An observation of `crc_out` in the interval before the next edge (R107). -/
  | observe
  /-- Power returns (R160, R170; log entry 5). -/
  | powerOn
deriving DecidableEq, Repr

/-- The state. `crc` is the block's one register (R20); the other three fields are the model's own (log entries 1, 2, 3). -/
structure State where
  /-- The accumulator (R20, R21). -/
  crc : Acc
  /-- What the host does next, oldest first. -/
  pending : List HostMove
  /-- The index of the next rising edge (R9). No next `crc` and no output depends on it. -/
  edge : Nat
  /-- What the host has observed on `crc_out`, oldest first, each value with the index of the edge it was observed before. -/
  seen : List (Nat × Word)
deriving DecidableEq, Repr

/-- The faults (R151). -/
inductive Fault where
  /-- Raised by an observation of `crc_out` before edge `edge` while `crc` is `Unwritten` (R107): `State.crcOut`.
  Safe: the silicon shows some value there, and the model admits no claim about it. -/
  | unwrittenRead (edge : Nat)
deriving DecidableEq, Repr

/-- The refusals (R151). -/
inductive Refusal where
  /-- An instruction with no meaning in the model. Raised by an arm of `exec` only; no arm raises it. Safe. -/
  | notModelled (mnemonic : String)
  /-- Raised by a rising edge, number `edge`, with an undefined level on the deciding bits `bits` of the command word (R70):
  `refuseInput`. Safe: the silicon latches some value there, and the model admits no claim about that run. -/
  | undefinedInput (edge : Nat) (bits : List Nat)
  /-- Raised by a call of the reference procedure `computeCrc` with `length > available` (R131), never by a step. Safe: the
  original design reads out of bounds there and returns some value. -/
  | invalidArgument (length available : Nat)
deriving DecidableEq, Repr

/-- The block right after reset (R34, R172): the seed in `crc`. The host has no move pending (log entry 1). -/
def State.reset : State where
  crc := .val 0xFFFF
  pending := []
  edge := 0
  seen := []

/-- The block right after power-on, before any reset (R34, R170). -/
def State.poweredOn : State where
  crc := .unwritten
  pending := []
  edge := 0
  seen := []

end Sys2Proof.Machine
end

