-- ==== Sys2Proof/Machine/Operands.lean ====
section
/-! DEFINITION. The operand forms: the byte operand beside a 16-bit value (R63), and the two bytes of a 16-bit value. -/

namespace Sys2Proof.Machine

/-- `zext_16` (R8): a byte where it is combined with a 16-bit value (R63). -/
def zext16 (b : Byte) : Word := b.setWidth 16

/-- `v[15:8]`. -/
def hiByte (v : Word) : Byte := v.extractLsb' 8 8

/-- `v[7:0]`. -/
def loByte (v : Word) : Byte := v.extractLsb' 0 8

/-- `{hi, lo}` (R8): the word of two bytes, `hi` in the high bits. -/
def joinBytes (hi lo : Byte) : Word := zext16 hi <<< 8 ||| zext16 lo

end Sys2Proof.Machine
end

