-- ==== Sys2Proof/Machine/Datapath.lean ====
section
/-! DEFINITION. The update datapath CRCSTEP (R80), the fold CRCFOLD (R91), and the equivalent forms of R83, R84, R86 and R88. -/

namespace Sys2Proof.Machine

/-- The hardwired seed (R23). -/
def seed : Word := 0xFFFF

/-! ## The definition -/

/-- The wires of one evaluation of the update (R30, R80), each named by the sub-step that drives it. -/
structure SubSteps where
  temp : Word
  acc2 : Word
  quick3 : Word
  acc4 : Word
  quick5 : Word
  acc5 : Word
  quick6 : Word
  acc6 : Word
deriving DecidableEq, Repr

/-- The six sub-steps of R80. Every wire is 16 bits wide, so every shift is truncated to 16 bits (R81). -/
def subSteps (c : Word) (b : Byte) : SubSteps :=
  let temp := (c >>> 8) ^^^ zext16 b
  let acc2 := c <<< 8
  let quick3 := temp ^^^ (temp >>> 4)
  let acc4 := acc2 ^^^ quick3
  let quick5 := quick3 <<< 5
  let acc5 := acc4 ^^^ quick5
  let quick6 := quick5 <<< 7
  { temp, acc2, quick3, acc4, quick5, acc5, quick6, acc6 := acc5 ^^^ quick6 }

/-- `CRCSTEP(c, b)` (R80): the accumulator after byte `b`. -/
def crcStep (c : Word) (b : Byte) : Word := (subSteps c b).acc6

/-- `CRCFOLD(a, m)` (R91): the left fold of `crcStep` over the bytes, in order. -/
def crcFold (a : Word) : List Byte → Word
  | [] => a
  | b :: m => crcFold (crcStep a b) m

/-! ## The equivalent forms -/

/-- The closed form of R83. -/
def crcStepClosed (c : Word) (b : Byte) : Word :=
  let t : Byte := hiByte c ^^^ b
  let q : Byte := t ^^^ (t >>> 4)
  joinBytes (loByte c) 0x00 ^^^ zext16 q ^^^ (zext16 q <<< 5) ^^^ (zext16 q <<< 12)

/-- The accumulator bits XORed into each output bit, bit 0 first (R84). The byte bits follow: `c[8+i]` and `d[i]` appear together. -/
def crcStepTaps : List (List Nat) :=
  [[8, 12], [9, 13], [10, 14], [11, 15], [12], [8, 12, 13], [9, 13, 14], [10, 14, 15],
   [0, 11, 15], [1, 12], [2, 13], [3, 14], [4, 8, 12, 15], [5, 9, 13], [6, 10, 14], [7, 11, 15]]

/-- The XOR of the taps `is`: each tap `i` brings `c[i]`, and `d[i-8]` with it when `i` is 8 or more (R84). -/
def xorTaps (c : Word) (d : Byte) : List Nat → Bool
  | [] => false
  | i :: is => (c.getLsbD i ^^ (decide (8 ≤ i) && d.getLsbD (i - 8))) ^^ xorTaps c d is

/-- The polynomial `0x1021` (R86), x^16 + x^12 + x^5 + 1 less its top term. -/
def polynomial : Word := 0x1021

/-- One iteration of R86's loop. -/
def bitShift (a : Word) : Word :=
  if a.getLsbD 15 then (a <<< 1) ^^^ polynomial else a <<< 1

/-- `n` iterations of R86's loop. -/
def bitShifts : Nat → Word → Word
  | 0, a => a
  | n + 1, a => bitShifts n (bitShift a)

/-- `BITSTEP(c, b)` (R86): the bit-serial form, most significant bit first. -/
def bitStep (c : Word) (b : Byte) : Word := bitShifts 8 (c ^^^ (zext16 b <<< 8))

/-- The update with every intermediate `w` bits wide and no truncation until the final one to 16 bits (R88). -/
def crcStepAtWidth (w : Nat) (c : Word) (b : Byte) : Word :=
  let acc : BitVec w := c.setWidth w
  let temp := (acc >>> 8) ^^^ b.setWidth w
  let quick3 := temp ^^^ (temp >>> 4)
  let quick5 := quick3 <<< 5
  let quick6 := quick5 <<< 7
  ((acc <<< 8) ^^^ quick3 ^^^ quick5 ^^^ quick6).setWidth 16

end Sys2Proof.Machine
end

