-- ==== Sys2Proof/Machine/Ops.lean ====
section
/-! DEFINITION. The named operations over the state: the accumulator's writes, the clock edge, the observation of `crc_out`, power
returning, and the two outcomes of R151 a step can have. The block takes no exception and returns from none (R150, R154, R155), so
there is no trap entry here: its nearest analogue is the seed load of RESET, which saves nothing (R154). -/

namespace Sys2Proof.Machine

/-- `crc <- a` (R9). -/
def State.setCrc (s : State) (a : Acc) : State := { s with crc := a }

/-- The seed load `crc <- SEED` of INIT and RESET (R102, R105). -/
def State.loadSeed (s : State) : State := s.setCrc (.val seed)

/-- The content of the accumulator after byte `b`: `Unwritten` stays `Unwritten` (R103). -/
def Acc.consume (a : Acc) (b : Byte) : Acc :=
  match a with
  | .unwritten => .unwritten
  | .val v => .val (crcStep v b)

/-- What a rising edge does beside its command: the host's move is over, and the next edge is the next one (R9, R100). -/
def State.clock (s : State) (rest : List HostMove) : State := { s with pending := rest, edge := s.edge + 1 }

/-- `crc_out` as the host observes it (R29, R107): the accumulator bit for bit, and a fault while it is `Unwritten`. -/
def State.crcOut (s : State) : Except Fault Word :=
  match s.crc with
  | .unwritten => .error (.unwrittenRead s.edge)
  | .val v => .ok v

/-- An observation by the host (R107): the value is recorded, or the fault is. It changes nothing of the block (R47). -/
def observe (rest : List HostMove) (s : State) : Host.Outcome State Fault Refusal :=
  match s.crcOut with
  | .ok v => .next { s with pending := rest, seen := s.seen ++ [(s.edge, v)] }
  | .error f => .fault f

/-- Power returns: `crc` is `Unwritten` (R160, R170; log entry 5). -/
def State.powerUp (s : State) (rest : List HostMove) : State := { s with crc := .unwritten, pending := rest }

/-- The refusal of an edge with an undefined level on the deciding bits `bits` (R70). -/
def refuseInput (bits : List Nat) (s : State) : Host.Outcome State Fault Refusal :=
  .refused (.undefinedInput s.edge bits)

/-- The host makes no move: no edge comes, and nothing changes (R171; U7 of 93_implementation_defined.md; log entry 4). -/
def idle (s : State) : Host.Outcome State Fault Refusal := .next s

/-- The host presents levels for the very next edges, one element an edge. -/
def State.drive (s : State) (edges : List Pins) : State :=
  { s with pending := edges.map .edge ++ s.pending }

/-- The host presents a table word at the very next edge; a number that is no command word cannot be presented (log entry 11). -/
def State.presentTableWord (s : State) (nbits w : Nat) : State :=
  match commandWordOfTable nbits w with
  | some cw => s.drive [Pins.ofWord cw]
  | none => s

end Sys2Proof.Machine
end

