-- ==== Sys2Proof/Machine/Commands.lean ====
section
/-! DEFINITION. The meanings of the five commands. Each reads the value of `crc` before the edge and changes nothing but `crc`
(R100); none faults and none refuses. -/

namespace Sys2Proof.Machine

/-- RESET (R105): `crc <- SEED`. -/
def execReset (s : State) : Host.Outcome State Fault Refusal := .next s.loadSeed

/-- INIT_UPDATE b (R104): `crc <- CRCSTEP(SEED, b)`. The old `crc` is not read. -/
def execInitUpdate (b : Byte) (s : State) : Host.Outcome State Fault Refusal := .next (s.setCrc (.val (crcStep seed b)))

/-- INIT (R102): `crc <- SEED`. -/
def execInit (s : State) : Host.Outcome State Fault Refusal := .next s.loadSeed

/-- UPDATE b (R103): `crc <- CRCSTEP(crc, b)`, and `Unwritten` stays `Unwritten`. -/
def execUpdate (b : Byte) (s : State) : Host.Outcome State Fault Refusal := .next (s.setCrc (s.crc.consume b))

/-- NOP (R101): holds `crc`. -/
def execNop (s : State) : Host.Outcome State Fault Refusal := .next s

end Sys2Proof.Machine
end

