-- ==== Sys2Proof/Machine/Dispatch.lean ====
section
/-! DEFINITION. The dispatch of a command to its meaning. -/

namespace Sys2Proof.Machine

def exec (i : Instr) (s : State) : Host.Outcome State Fault Refusal :=
  match i with
  | .reset => Sys2Proof.Machine.execReset s
  | .initUpdate b => Sys2Proof.Machine.execInitUpdate b s
  | .init => Sys2Proof.Machine.execInit s
  | .update b => Sys2Proof.Machine.execUpdate b s
  | .nop => Sys2Proof.Machine.execNop s

end Sys2Proof.Machine
end

