-- ==== Sys2Proof/Machine/Step.lean ====
section
/-! DEFINITION. One step: the host's next move. Only a rising edge is an event of the block. -/

namespace Sys2Proof.Machine

/-- One move of the host. At an edge the block decodes the sampled levels and executes the command (R100); undefined deciding levels
are refused (R70). Between edges the host observes `crc_out` (R107), or power returns (R160). -/
def step (s : State) : Host.Outcome State Fault Refusal :=
  match s.pending with
  | [] => idle s
  | .edge pins :: rest =>
    match decodePins pins with
    | .ok i => exec i (s.clock rest)
    | .error bits => refuseInput bits s
  | .observe :: rest => observe rest s
  | .powerOn :: rest => .next (s.powerUp rest)

/-- `s` with the command of a table word presented at the very next edge (log entry 1). -/
def State.withFetchWord (s : State) (nbits w : Nat) : State := s.presentTableWord nbits w

end Sys2Proof.Machine
end

