-- ==== Sys2Proof/Machine/Assembler.lean ====
section
/-! DEFINITION. The text of a command sequence (R67, R68): reading a line, expanding pseudo-instructions, assembling, and the
disassembler. Text is a list of characters. -/

namespace Sys2Proof.Machine

/-! ## Expansion and assembly -/

/-- The UPDATE commands of a list of numerals. -/
def updates (bs : List Nat) : List Instr := bs.map fun b => .update (BitVec.ofNat 8 b)

/-- The commands of a line, one per edge (R67), with the expansions of R68. -/
def expandLine : AsmLine → List Instr
  | .reset => [.reset]
  | .nop => [.nop]
  | .init => [.init]
  | .update b => [.update (BitVec.ofNat 8 b)]
  | .initUpdate b => [.initUpdate (BitVec.ofNat 8 b)]
  | .wait k => List.replicate k .nop
  | .msg bs => .init :: updates bs
  | .msgf [] => []
  | .msgf (b :: bs) => .initUpdate (BitVec.ofNat 8 b) :: updates bs
  | .bytes bs => updates bs

/-- The command words of a line; none for a line that is not well formed. -/
def assembleLine (l : AsmLine) : Option (List CommandWord) :=
  if l.wf then some ((expandLine l).map encode) else none

/-- The command words of a sequence of lines, in order; none if a line is not well formed. -/
def assemble : List AsmLine → Option (List CommandWord)
  | [] => some []
  | l :: ls =>
    match assembleLine l, assemble ls with
    | some ws, some rest => some (ws ++ rest)
    | _, _ => none

/-! ## Reading a line -/

/-- Why a line of text is no line of a command sequence. -/
inductive AsmError where
  | unknownMnemonic
  | badOperands
  | illFormed
deriving DecidableEq, Repr

/-- A space or a tab. -/
def isBlank (c : Char) : Bool := c == ' ' || c == '\t'

/-- The text without blanks at its two ends. -/
def trimBlanks (cs : List Char) : List Char := ((cs.dropWhile isBlank).reverse.dropWhile isBlank).reverse

/-- The text before the comment (R67). -/
def dropComment (cs : List Char) : List Char := cs.takeWhile (· != ';')

/-- The value of a decimal digit. -/
def decimalDigit (c : Char) : Option Nat :=
  if '0'.toNat ≤ c.toNat ∧ c.toNat ≤ '9'.toNat then some (c.toNat - '0'.toNat) else none

/-- The value of a hexadecimal digit, in capitals or not (log entry 15). -/
def hexDigit (c : Char) : Option Nat :=
  if 'a'.toNat ≤ c.toNat ∧ c.toNat ≤ 'f'.toNat then some (c.toNat - 'a'.toNat + 10)
  else if 'A'.toNat ≤ c.toNat ∧ c.toNat ≤ 'F'.toNat then some (c.toNat - 'A'.toNat + 10)
  else decimalDigit c

/-- The value of decimal digits, after `acc`. -/
def decimalValue (acc : Nat) : List Char → Option Nat
  | [] => some acc
  | c :: cs =>
    match decimalDigit c with
    | some d => decimalValue (10 * acc + d) cs
    | none => none

/-- A numeral: `0xNN`, or decimal. R67 gives these forms for a byte; that the count of WAIT is read in them too is the model's choice
(log entry 15). -/
def readNumeral : List Char → Option Nat
  | ['0', 'x', h, l] =>
    match hexDigit h, hexDigit l with
    | some a, some b => some (16 * a + b)
    | _, _ => none
  | [] => none
  | c :: cs => decimalValue 0 (c :: cs)

/-- The pieces of a text between commas. -/
def splitCommas : List Char → List (List Char)
  | [] => [[]]
  | c :: cs =>
    if c = ',' then [] :: splitCommas cs
    else
      match splitCommas cs with
      | [] => [[c]]
      | p :: ps => (c :: p) :: ps

/-- The numerals of a list of pieces. -/
def readNumerals : List (List Char) → Option (List Nat)
  | [] => some []
  | p :: ps =>
    match readNumeral (trimBlanks p), readNumerals ps with
    | some n, some ns => some (n :: ns)
    | _, _ => none

/-- The operands of a line: none at all, or numerals between commas. The `k` of `WAIT k`, whose form R67 and R68 leave open, is read as
a byte's numeral is: `0x` with exactly two digits, or decimal of any size. So `WAIT 256` is read and `WAIT 0x100` is not: the model's
choice (log entry 15). -/
def readOperands (cs : List Char) : Option (List Nat) :=
  if cs = [] then some [] else readNumerals (splitCommas cs)

/-- The line of a mnemonic and its operands. -/
def lineOf (mnemonic : List Char) (ops : List Nat) : Except AsmError AsmLine :=
  if mnemonic = ['R', 'E', 'S', 'E', 'T'] then
    if ops = [] then .ok .reset else .error .badOperands
  else if mnemonic = ['N', 'O', 'P'] then
    if ops = [] then .ok .nop else .error .badOperands
  else if mnemonic = ['I', 'N', 'I', 'T'] then
    if ops = [] then .ok .init else .error .badOperands
  else if mnemonic = ['U', 'P', 'D', 'A', 'T', 'E'] then
    match ops with
    | [b] => .ok (.update b)
    | _ => .error .badOperands
  else if mnemonic = ['I', 'N', 'I', 'T', '_', 'U', 'P', 'D', 'A', 'T', 'E'] then
    match ops with
    | [b] => .ok (.initUpdate b)
    | _ => .error .badOperands
  else if mnemonic = ['W', 'A', 'I', 'T'] then
    match ops with
    | [k] => .ok (.wait k)
    | _ => .error .badOperands
  else if mnemonic = ['M', 'S', 'G'] then .ok (.msg ops)
  else if mnemonic = ['M', 'S', 'G', 'F'] then .ok (.msgf ops)
  else if mnemonic = ['B', 'Y', 'T', 'E', 'S'] then .ok (.bytes ops)
  else .error .unknownMnemonic

/-- A line of text (R67): nothing, or one line of a command sequence, before an optional comment. -/
def readLine (text : List Char) : Except AsmError (Option AsmLine) :=
  let body := trimBlanks (dropComment text)
  if body = [] then .ok none
  else
    match readOperands (trimBlanks (body.dropWhile fun c => !isBlank c)) with
    | none => .error .badOperands
    | some ops =>
      match lineOf (body.takeWhile fun c => !isBlank c) ops with
      | .error e => .error e
      | .ok l => if l.wf then .ok (some l) else .error .illFormed

/-! ## Disassembly -/

/-- A hexadecimal digit, in capitals. -/
def hexChar (n : Nat) : Char := if n < 10 then Char.ofNat ('0'.toNat + n) else Char.ofNat ('A'.toNat + (n - 10))

/-- A byte as `0xNN` (R67). -/
def printByte (b : Byte) : List Char := ['0', 'x', hexChar (b.toNat / 16), hexChar (b.toNat % 16)]

/-- The line of a command (R67). -/
def printInstr : Instr → List Char
  | .reset => ['R', 'E', 'S', 'E', 'T']
  | .initUpdate b => ['I', 'N', 'I', 'T', '_', 'U', 'P', 'D', 'A', 'T', 'E', ' '] ++ printByte b
  | .init => ['I', 'N', 'I', 'T']
  | .update b => ['U', 'P', 'D', 'A', 'T', 'E', ' '] ++ printByte b
  | .nop => ['N', 'O', 'P']

/-- The line a disassembler prints for a command word (R67). -/
def disassemble (cw : CommandWord) : List Char := printInstr (decode cw)

end Sys2Proof.Machine
end

