-- ==== Sys2Proof/Machine/Flags.lean ====
section
/-! DEFINITION. The flags: the block has none (R25), so there is no flag computation. -/

namespace Sys2Proof.Machine

/-- The block's flags, condition codes, predicates and status bits: none exist (R25). -/
abbrev Flag := Empty

/-- The flags a command writes: none, whichever the command (R101 to R105). -/
def flagsWritten (_ : Instr) : List Flag := []

end Sys2Proof.Machine
end

