-- ==== Sys2Proof/Machine/Procedure.lean ====
section
/-! DEFINITION. The reference procedure `compute_crc` (R130 to R134): a function of the model, not a port of the block. -/

namespace Sys2Proof.Machine

/-- The loop of R132: `n` updates, with the first `n` bytes of the message in order. It stops early only where the message ends
before `n`, which the check of `computeCrc` excludes. -/
def updateLoop : Nat → List Byte → Word → Word
  | 0, _, acc => acc
  | _ + 1, [], acc => acc
  | n + 1, b :: m, acc => updateLoop n m (crcStep acc b)

/-- `compute_crc(message, length)` (R130). The precondition is checked before any byte is consumed (R131). -/
def computeCrc (message : List Byte) (length : BitVec Config.lenWidth) : Except Refusal Word :=
  if message.length < length.toNat then .error (.invalidArgument length.toNat message.length)
  else .ok (updateLoop length.toNat message seed)

end Sys2Proof.Machine
end

