-- ==== Sys2Proof/Machine/Run.lean ====
section
/-! DEFINITION. A run and its observation (R182). -/

namespace Sys2Proof.Machine

/-- The observation of a run (R182): the levels `edges` at successive edges from the start state `s`, and then `crc_out` of the end
state. A refusal at any edge makes the run bad, and is what it answers. -/
def observeRun (s : State) (edges : List Pins) : Host.Outcome Word Fault Refusal :=
  match Host.Core.run core edges.length (s.drive edges) with
  | .next t =>
    match t.crcOut with
    | .ok v => .next v
    | .error f => .fault f
  | .fault f => .fault f
  | .refused r => .refused r

end Sys2Proof.Machine
end

