-- ==== Sys2Proof/Machine/System.lean ====
section
/-! DEFINITION. A system of `N_INST` instances (R7, R52, R159): each has its own state and its own host moves, and nothing is shared. -/

namespace Sys2Proof.Machine

/-- A system of `nInst` blocks. `nInst` is the spec's free parameter `N_INST` (R7). -/
structure System (nInst : Nat) where
  blocks : Vector State nInst
deriving DecidableEq, Repr

/-- One move of the host at block `k` (R49: there is no ordering between blocks, so any block may move next). Where
that block's step faults or is refused, the fault or refusal is the outcome of the system's move, with the edge index of that block, no
name of the block, and no next state for the others: the spec is silent on what a system records, and this is the model's choice (log
entry 19). -/
def System.stepBlock {nInst : Nat} (sys : System nInst) (k : Fin nInst) : Host.Outcome (System nInst) Fault Refusal :=
  match step sys.blocks[k] with
  | .next t => .next { blocks := sys.blocks.set k t }
  | .fault f => .fault f
  | .refused r => .refused r

/-- A system whose every block is right after reset. -/
def System.reset (nInst : Nat) : System nInst where
  blocks := Vector.replicate nInst State.reset

end Sys2Proof.Machine
end

