-- ==== Sys2Proof/Machine/Sequence.lean ====
section
/-! DEFINITION. Command sequences (R182) and the host's sequence for one message (R135). -/

namespace Sys2Proof.Machine

/-- The commands of a sequence, executed one per edge in edge order (R49, R109). -/
def execAll : List Instr → State → Host.Outcome State Fault Refusal
  | [], s => .next s
  | i :: is, s =>
    match exec i s with
    | .next t => execAll is t
    | .fault f => .fault f
    | .refused r => .refused r

/-- A seed load (R13): RESET, INIT or INIT_UPDATE. -/
def seedLoad : Instr → Bool
  | .reset => true
  | .initUpdate _ => true
  | .init => true
  | .update _ => false
  | .nop => false

/-- A byte-consuming command (R13): UPDATE or INIT_UPDATE. -/
def consumesByte : Instr → Bool
  | .reset => false
  | .initUpdate _ => true
  | .init => false
  | .update _ => true
  | .nop => false

/-- The sequence without its NOPs. -/
def dropNops (cmds : List Instr) : List Instr := cmds.filter fun i => i ≠ .nop

/-- The sequences of R135 for a message, less their NOPs: form A from INIT, form A from RESET, and form B for a message of one byte
or more. -/
def messageForms (m : List Byte) : List (List Instr) :=
  [.init :: m.map .update, .reset :: m.map .update] ++
    match m with
    | [] => []
    | b :: m' => [.initUpdate b :: m'.map .update]

/-- Whether a command sequence computes the CRC of `m` (R135): one of the forms, with NOPs anywhere in it (R137; log entry 17). -/
def isMessage (cmds : List Instr) (m : List Byte) : Bool := (messageForms m).contains (dropNops cmds)

end Sys2Proof.Machine
end

