-- ==== Sys2Proof/Safety.lean ====
section
/-! DEFINITION. What counts as a safe run, in the terms the statements use: the launch premise (R174), the runs that record no fault
and no refusal (R151, R182), and the consistency of what the host has seen (R29, R46). -/

namespace Sys2Proof.Machine

/-- Whether an accumulator has been written since power-on (R21). -/
def Acc.written : Acc → Bool
  | .unwritten => false
  | .val _ => true

/-- Whether the host's moves record no fault and no refusal (R151), the accumulator being written or not at their start: no
undefined deciding bit at an edge (R70), and no observation before the first seed load after power-on (R107). -/
def movesSafe : Bool → List HostMove → Bool
  | _, [] => true
  | written, .edge pins :: rest =>
    match decodePins pins with
    | .ok i => movesSafe (written || seedLoad i) rest
    | .error _ => false
  | written, .observe :: rest => written && movesSafe written rest
  | _, .powerOn :: rest => movesSafe false rest

/-- Whether a state's pending moves record no fault and no refusal. -/
def State.Safe (s : State) : Prop := movesSafe s.crc.written s.pending = true

/-- A move of the launch premise (R174): an edge whose deciding bits are two-valued, or an observation. -/
def launchMove : HostMove → Bool
  | .edge pins => pins.undefinedDeciding = []
  | .observe => true
  | .powerOn => false

/-- The launch premise (R174): "the sequence starts with a seed load, and every deciding input bit is two-valued". -/
def State.Launch (s : State) : Prop :=
  ∃ pins i rest, s.pending = .edge pins :: rest ∧ decodePins pins = .ok i ∧ seedLoad i = true ∧ ∀ mv ∈ rest, launchMove mv = true

/-- What the host has seen is consistent: no observation is dated after the next edge; one dated before it shows what `crc` holds
now, if `crc` is written; and two of one date agree, since `crc_out` holds its value between edges (R29, R47). -/
def State.SeenConsistent (s : State) : Prop :=
  (∀ k v, (k, v) ∈ s.seen → k ≤ s.edge) ∧
  (∀ v, (s.edge, v) ∈ s.seen → s.crc = .val v ∨ s.crc = .unwritten) ∧
  (∀ k v w, (k, v) ∈ s.seen → (k, w) ∈ s.seen → v = w)

end Sys2Proof.Machine
end

