-- ==== Sys2Proof/Certificates/Slice0/Obligations.lean ====
section
/-! DEFINITION. The statements for the provers, in the order of OBLIGATIONS.json: the commands, decoding, the step, the datapath, the
message procedure, safety, systems and the assembler. -/

open Sys2Proof Sys2Proof.Machine

/-! ## The commands (41_commands.md) -/

/-- R101. NOP is the words `000--------`; it holds the whole state, `Unwritten` included; any number of NOPs does; and a NOP inserted
anywhere in a command sequence changes nothing of the sequence's result. -/
def Obligations.NopHoldsTheState : Prop :=
  (∀ cw : CommandWord, decode cw = .nop ↔ cw &&& 0x700 = 0x000) ∧
  (∀ s : State, exec .nop s = .next s) ∧
  (∀ (n : Nat) (s : State), execAll (List.replicate n .nop) s = .next s) ∧
  (∀ (before after : List Instr) (s : State), execAll (before ++ .nop :: after) s = execAll (before ++ after) s) ∧
  flagsWritten .nop = []

/-- R102. INIT is the words `010--------`; from every state, `Unwritten` included, it completes with `0xFFFF` in `crc` and nothing
else changed; it is idempotent; and it discards what `crc` held. -/
def Obligations.InitLoadsTheSeed : Prop :=
  (∀ cw : CommandWord, decode cw = .init ↔ cw &&& 0x700 = 0x200) ∧
  (∀ s : State, exec .init s = .next { s with crc := .val 0xFFFF }) ∧
  (∀ s : State, execAll [.init, .init] s = exec .init s) ∧
  (∀ (s : State) (a : Acc), exec .init { s with crc := a } = exec .init s) ∧
  flagsWritten .init = []

/-- R103. UPDATE b is the words `001dddddddd`; from `Val(v)` it completes with `CRCSTEP(v, b)` in `crc` and nothing else changed; from
`Unwritten` it completes with nothing changed. Its corner cases and its example follow. -/
def Obligations.UpdateConsumesTheByte : Prop :=
  (∀ (cw : CommandWord) (b : Byte), decode cw = .update b ↔ cw &&& 0x700 = 0x100 ∧ cw.extractLsb' 0 8 = b) ∧
  (∀ (s : State) (v : Word) (b : Byte),
    exec (.update b) { s with crc := .val v } = .next { s with crc := .val (crcStep v b) }) ∧
  (∀ (s : State) (b : Byte), exec (.update b) { s with crc := .unwritten } = .next { s with crc := .unwritten }) ∧
  (∀ (s : State) (v : Word),
    exec (.update (hiByte v)) { s with crc := .val v } = .next { s with crc := .val (joinBytes (loByte v) 0x00) }) ∧
  (∀ s : State, exec (.update 0x00) { s with crc := .val 0x0000 } = .next { s with crc := .val 0x0000 }) ∧
  (decode 0x100 = .update 0x00 ∧
    ∀ s : State, exec (.update 0x00) { s with crc := .val 0xFFFF } = .next { s with crc := .val 0xE1F0 }) ∧
  (∀ b : Byte, flagsWritten (.update b) = [])

/-- R104. INIT_UPDATE b is the words `011dddddddd`; from every state, `Unwritten` included, it completes with `CRCSTEP(0xFFFF, b)` in
`crc` and nothing else changed, so that the old `crc` never matters. That the result is that of INIT and then UPDATE b, which the spec
derives, is in `UpdatesContinueTheFold`. -/
def Obligations.InitUpdateStartsFromTheSeed : Prop :=
  (∀ (cw : CommandWord) (b : Byte), decode cw = .initUpdate b ↔ cw &&& 0x700 = 0x300 ∧ cw.extractLsb' 0 8 = b) ∧
  (∀ (s : State) (b : Byte), exec (.initUpdate b) s = .next { s with crc := .val (crcStep 0xFFFF b) }) ∧
  (∀ (s : State) (b : Byte) (a : Acc), exec (.initUpdate b) { s with crc := a } = exec (.initUpdate b) s) ∧
  (decode 0x334 = .initUpdate 0x34 ∧ crcStep 0xFFFF 0x34 = 0x9727) ∧
  (∀ b : Byte, flagsWritten (.initUpdate b) = [])

/-- R105. RESET is the words with `CW[10] = 1`, whatever `init`, `din_valid` and `din` are; from every state it completes with
`0xFFFF` in `crc` and nothing else changed, as INIT does; the byte of its example word is discarded. -/
def Obligations.ResetLoadsTheSeed : Prop :=
  (∀ cw : CommandWord, decode cw = .reset ↔ cw &&& 0x400 = 0x400) ∧
  (∀ s : State, exec .reset s = .next { s with crc := .val 0xFFFF }) ∧
  (∀ s : State, exec .reset s = exec .init s) ∧
  (∀ (s : State) (rest : List HostMove),
    step { s with crc := .val 0xB915, pending := .edge (Pins.ofWord 0x5FF) :: rest } =
      .next { s with crc := .val 0xFFFF, pending := rest, edge := s.edge + 1 }) ∧
  flagsWritten .reset = []

/-! ## Decoding (30_encoding.md) -/

/-- R62. Exactly one row of the table applies to every word, and it is the row of the command the word decodes to; the byte of an
UPDATE or INIT_UPDATE is `CW[7:0]`. -/
def Obligations.ExactlyOneRowApplies : Prop :=
  opcodeTable = [⟨"RESET", 0x400, 0x400⟩, ⟨"INIT_UPDATE", 0x300, 0x700⟩, ⟨"INIT", 0x200, 0x700⟩, ⟨"UPDATE", 0x100, 0x700⟩,
    ⟨"NOP", 0x000, 0x700⟩] ∧
  ∀ cw : CommandWord,
    opcodeTable.filter (fun row => row.applies cw) = [(decode cw).row] ∧
    ∀ b : Byte, decode cw = .update b ∨ decode cw = .initUpdate b → b = cw.extractLsb' 0 8

/-- The headline of the encoding: every command, with every operand, is read back from the word the encoder gives it, from the table
word, and from every set of pin levels that agrees with that word on the command's deciding bits, whatever the ignored levels are. -/
def Obligations.DecodeOfEncodeIsTheInstruction : Prop :=
  (∀ i : Instr, decode (encode i) = i) ∧
  (∀ i : Instr, decodeTableWord 16 (encode i).toNat = some i) ∧
  (∀ (i : Instr) (p : Pins), (∀ n ∈ (Pins.ofWord (encode i)).deciding, p.level n = (Pins.ofWord (encode i)).level n) →
    decodePins p = .ok i)

/-- The written-out words of the spec's decode table decode to the commands it names, and its assembled commands encode to its words.
The spec marks the table as derived from its decode rule and its syntax rule. -/
def Obligations.WrittenOutWordsDecode : Prop :=
  encode .nop = 0b00000000000 ∧ encode .init = 0b01000000000 ∧ encode (.update 0x31) = 0b00100110001 ∧
  encode (.update 0x00) = 0b00100000000 ∧ encode (.update 0xFF) = 0b00111111111 ∧
  encode (.initUpdate 0x31) = 0b01100110001 ∧ encode .reset = 0b10000000000 ∧
  decode 0b11111000011 = .reset ∧ decode 0b01010100101 = .init ∧ decode 0b00011111111 = .nop ∧
  decode 0b00100110001 = .update 0x31 ∧ decode 0b01100110001 = .initUpdate 0x31

/-- R153 for sampled levels: which command pins decode to, by the priority `rst`, then `init`, then `din_valid`; exact for every set of
levels, undefined ones included. -/
def Obligations.PinsDecodeByPriority : Prop :=
  ∀ p : Pins,
    (decodePins p = .ok .reset ↔ p.rst = .high) ∧
    (∀ b : Byte, decodePins p = .ok (.initUpdate b) ↔
      p.rst = .low ∧ p.init = .high ∧ p.dinValid = .high ∧ ∀ k : Fin 8, p.din[k] = Level.ofBool (b.getLsbD k)) ∧
    (decodePins p = .ok .init ↔ p.rst = .low ∧ p.init = .high ∧ p.dinValid = .low) ∧
    (∀ b : Byte, decodePins p = .ok (.update b) ↔
      p.rst = .low ∧ p.init = .low ∧ p.dinValid = .high ∧ ∀ k : Fin 8, p.din[k] = Level.ofBool (b.getLsbD k)) ∧
    (decodePins p = .ok .nop ↔ p.rst = .low ∧ p.init = .low ∧ p.dinValid = .low)

/-- R64. Under `R = 1` no level on any other input, and under `R = 0, V = 0` no level on `din`, has an effect on what the edge does. -/
def Obligations.IgnoredLevelsHaveNoEffect : Prop :=
  ∀ (s : State) (rest : List HostMove),
    (∀ (i j v w : Level) (d e : Vector Level 8),
      step { s with pending := .edge ⟨.high, i, v, d⟩ :: rest } = step { s with pending := .edge ⟨.high, j, w, e⟩ :: rest }) ∧
    (∀ (i : Level) (d e : Vector Level 8),
      step { s with pending := .edge ⟨.low, i, .low, d⟩ :: rest } = step { s with pending := .edge ⟨.low, i, .low, e⟩ :: rest })

/-- R70. An undefined level on a bit that decides the command (`R`; `I` and `V` when `R = 0`; `D` when `R = 0` and `V = 1`) is a
refusal, which no later step clears; pins without one run their command; and two-valued pins never refuse. -/
def Obligations.UndefinedDecidingLevelIsRefused : Prop :=
  (∀ p : Pins, (∃ bits, decodePins p = .error bits) ↔
    p.rst = .undef ∨ (p.rst = .low ∧ (p.init = .undef ∨ p.dinValid = .undef)) ∨
    (p.rst = .low ∧ p.dinValid = .high ∧ ∃ k : Fin 8, p.din[k] = .undef)) ∧
  (∀ (s : State) (p : Pins) (rest : List HostMove) (bits : List Nat) (n : Nat), decodePins p = .error bits →
    Host.Core.run core (n + 1) { s with pending := .edge p :: rest } = .refused (.undefinedInput s.edge bits)) ∧
  (∀ cw : CommandWord, decodePins (Pins.ofWord cw) = .ok (decode cw))

/-! ## The step -/

/-- An edge whose levels decode to a command is that command's execution, with the host's move over and the edge counted. -/
def Obligations.StepRunsTheDecodedInstruction : Prop :=
  (∀ (s : State) (p : Pins) (rest : List HostMove) (i : Instr), s.pending = .edge p :: rest → decodePins p = .ok i →
    step s = exec i { s with pending := rest, edge := s.edge + 1 }) ∧
  (∀ (s : State) (i : Instr),
    step (s.withFetchWord 16 (encode i).toNat) = exec i { s with edge := s.edge + 1 })

/-- The next state of an edge, command by command and content by content of `crc`, from the command word on the pins. The spec marks
its summary table as derived from the commands' rules. -/
def Obligations.EdgeWritesTheNextAccumulator : Prop :=
  ∀ (s : State) (cw : CommandWord) (rest : List HostMove),
    step { s with pending := .edge (Pins.ofWord cw) :: rest } =
      .next { s with
        pending := rest
        edge := s.edge + 1
        crc :=
          if cw.getLsbD 10 then .val 0xFFFF
          else if cw.getLsbD 9 then
            (if cw.getLsbD 8 then .val (crcStep 0xFFFF (cw.extractLsb' 0 8)) else .val 0xFFFF)
          else if cw.getLsbD 8 then
            (match s.crc with
              | .unwritten => .unwritten
              | .val v => .val (crcStep v (cw.extractLsb' 0 8)))
          else s.crc }

/-- R107. An observation of `crc_out` is `v` when `crc` is `Val(v)`, and the fault, with the edge's index, when `crc` is `Unwritten`;
an observation changes no state of the block; the fault is never cleared by a later step. -/
def Obligations.ObservationReadsTheAccumulator : Prop :=
  (∀ (s : State) (v : Word), s.crcOut = .ok v ↔ s.crc = .val v) ∧
  (∀ s : State, s.crcOut = .error (.unwrittenRead s.edge) ↔ s.crc = .unwritten) ∧
  (∀ (s : State) (rest : List HostMove) (v : Word), s.crc = .val v →
    ∃ t, step { s with pending := .observe :: rest } = .next t ∧ t.crc = s.crc ∧ t.edge = s.edge) ∧
  (∀ (s : State) (rest : List HostMove) (n : Nat), s.crc = .unwritten →
    Host.Core.run core (n + 1) { s with pending := .observe :: rest } = .fault (.unwrittenRead s.edge))

/-- The model's record of what the host observes (log entry 3): the value is appended with the index of the edge it was observed
before, and nothing else changes; two observations in a row show the same value. -/
def Obligations.ObservationIsRecorded : Prop :=
  ∀ (s : State) (rest : List HostMove) (v : Word), s.crc = .val v →
    step { s with pending := .observe :: rest } = .next { s with pending := rest, seen := s.seen ++ [(s.edge, v)] } ∧
    Host.Core.run core 2 { s with pending := .observe :: .observe :: rest } =
      .next { s with pending := rest, seen := s.seen ++ [(s.edge, v), (s.edge, v)] }

/-- Power returning makes `crc` `Unwritten` and changes nothing else; the block does not reset itself, so an observation next is the
fault. That power returning is a move of the host is the model's choice (log entry 5). -/
def Obligations.PowerOnLeavesTheAccumulatorUnwritten : Prop :=
  State.poweredOn.crc = .unwritten ∧
  (∀ (s : State) (rest : List HostMove),
    step { s with pending := .powerOn :: rest } = .next { s with crc := .unwritten, pending := rest }) ∧
  (∀ (s : State) (rest : List HostMove),
    Host.Core.run core 2 { s with pending := .powerOn :: .observe :: rest } = .fault (.unwrittenRead s.edge))

/-- Where the host makes no move, no edge comes and nothing changes, for any number of steps. This is the model's choice (log
entry 4). -/
def Obligations.NoMoveChangesNothing : Prop :=
  ∀ (s : State) (n : Nat), s.pending = [] → Host.Core.run core n s = .next s

/-- R172. The reset value of all the block's state: `crc = 0xFFFF`, which `crc_out` shows. It is the value the RESET command leaves. -/
def Obligations.ResetLeavesTheSeed : Prop :=
  State.reset.crc = .val 0xFFFF ∧ State.reset.crcOut = .ok 0xFFFF ∧
  ∀ s : State, ∃ t, exec .reset s = .next t ∧ t.crc = State.reset.crc ∧ t.crcOut = .ok 0xFFFF

/-- R175. The effect of the command at edge k shows on `crc_out` from edge k on, and not in the interval before it: an observation
before the edge records the old value under the edge's index, and one after it the new value under the next index. The record and the
index are the model's own (log entries 2 and 3). -/
def Obligations.ResultShowsOneEdgeLater : Prop :=
  ∀ (s : State) (cw : CommandWord) (v w : Word) (rest : List HostMove),
    s.crc = .val v → exec (decode cw) s = .next { s with crc := .val w } →
    Host.Core.run core 3 { s with pending := .observe :: .edge (Pins.ofWord cw) :: .observe :: rest } =
      .next { s with crc := .val w, pending := rest, edge := s.edge + 1, seen := s.seen ++ [(s.edge, v), (s.edge + 1, w)] }

/-- A run of edges is the command sequence it decodes to: one command per edge, no stall, in edge order. The list of moves and the edge
index are the model's own (log entries 1 and 2). -/
def Obligations.RunOfEdgesIsTheCommandSequence : Prop :=
  ∀ (s : State) (edges : List Pins) (cmds : List Instr) (rest : List HostMove), edges.map decodePins = cmds.map .ok →
    Host.Core.run core cmds.length { s with pending := edges.map .edge ++ rest } =
      execAll cmds { s with pending := rest, edge := s.edge + cmds.length }

/-- R182. A run of edges ends after its last edge, and its observation is `crc_out` of the end state: the value, or the fault with the
index of the edge that would come next; and a run with an undefined deciding level at an edge is bad: it ends in the refusal, with
that edge's index. -/
def Obligations.RunEndsInItsObservation : Prop :=
  (∀ (s : State) (edges : List Pins) (cmds : List Instr), edges.map decodePins = cmds.map .ok →
    ∃ t, execAll cmds s = .next t ∧
      (∀ v, t.crc = .val v → observeRun s edges = .next v) ∧
      (t.crc = .unwritten → observeRun s edges = .fault (.unwrittenRead (s.edge + edges.length)))) ∧
  (∀ (s : State) (good later : List Pins) (p : Pins) (cmds : List Instr) (bits : List Nat),
    good.map decodePins = cmds.map .ok → decodePins p = .error bits →
    observeRun s (good ++ p :: later) = .refused (.undefinedInput (s.edge + good.length) bits))

/-! ## The datapath (40_datapath.md) -/

/-- R80. `CRCSTEP` is the six numbered sub-steps, on numbers: every shift and the fold of step 1 truncated to 16 bits by `mod 2^16`. -/
def Obligations.CrcStepIsTheSixSubSteps : Prop :=
  ∀ (c : Word) (b : Byte),
    let temp := ((c.toNat >>> 8) ^^^ b.toNat) % 2 ^ 16
    let acc := (c.toNat <<< 8) % 2 ^ 16
    let quick := (temp ^^^ (temp >>> 4)) % 2 ^ 16
    let acc := acc ^^^ quick
    let quick := (quick <<< 5) % 2 ^ 16
    let acc := acc ^^^ quick
    let quick := (quick <<< 7) % 2 ^ 16
    let acc := acc ^^^ quick
    (crcStep c b).toNat = acc

/-- The ranges of the intermediates, for every accumulator and byte, which the spec marks as derived from the definition. -/
def Obligations.IntermediatesStayInRange : Prop :=
  ∀ (c : Word) (b : Byte),
    (subSteps c b).temp = zext16 (hiByte c ^^^ b) ∧
    (subSteps c b).acc2 = joinBytes (loByte c) 0x00 ∧
    hiByte (subSteps c b).quick3 = 0x00 ∧
    (subSteps c b).quick3.extractLsb' 4 4 = (subSteps c b).temp.extractLsb' 4 4 ∧
    (subSteps c b).quick3.extractLsb' 0 4 = (subSteps c b).temp.extractLsb' 0 4 ^^^ (subSteps c b).temp.extractLsb' 4 4 ∧
    (subSteps c b).quick5.toNat = (subSteps c b).quick3.toNat * 2 ^ 5 ∧
    (subSteps c b).quick5 &&& 0x1FE0 = (subSteps c b).quick5 ∧
    (subSteps c b).quick6 = (subSteps c b).quick3 <<< 12 ∧
    (subSteps c b).quick6 &&& 0xF000 = (subSteps c b).quick6 ∧
    (subSteps c b).quick6.extractLsb' 12 4 = (subSteps c b).quick3.extractLsb' 0 4

/-- The closed form, which the spec marks as derived from the definition. -/
def Obligations.CrcStepIsItsClosedForm : Prop :=
  ∀ (c : Word) (b : Byte), crcStep c b = crcStepClosed c b

/-- The sixteen per-bit equations, which the spec marks as derived; and the update depends on `c[15:8]` and the byte only through
their XOR. -/
def Obligations.CrcStepBitByBit : Prop :=
  (∀ (c : Word) (d : Byte) (n : Fin 16), (crcStep c d).getLsbD n = xorTaps c d (crcStepTaps.getD n [])) ∧
  (∀ (c c' : Word) (d d' : Byte), loByte c = loByte c' → hiByte c ^^^ d = hiByte c' ^^^ d' → crcStep c d = crcStep c' d')

/-- Linearity over GF(2), which the spec marks as derived. -/
def Obligations.CrcStepIsLinear : Prop :=
  (∀ (c1 c2 : Word) (b1 b2 : Byte), crcStep (c1 ^^^ c2) (b1 ^^^ b2) = crcStep c1 b1 ^^^ crcStep c2 b2) ∧ crcStep 0x0000 0x00 = 0x0000

/-- The bit-serial equivalence for all 2^24 inputs, with the polynomial 0x1021, most significant bit first; the spec derives it by
exhaustive evaluation. -/
def Obligations.CrcStepIsBitSerial : Prop :=
  ∀ (c : Word) (b : Byte), crcStep c b = bitStep c b

/-- Intermediates of any width of at least 16, truncated only at the end, give the same result; the spec marks this as derived. -/
def Obligations.AnyWidthOfSixteenOrMoreAgrees : Prop :=
  ∀ (w : Nat) (c : Word) (b : Byte), 16 ≤ w → crcStepAtWidth w c b = crcStep c b

/-- The corner cases, which the spec marks as derived from the closed form. -/
def Obligations.CrcStepCornerCases : Prop :=
  (∀ c : Word, crcStep c (hiByte c) = joinBytes (loByte c) 0x00) ∧
  (∀ (c : Word) (b : Byte), crcStep c b = joinBytes (loByte c) 0x00 ^^^ crcStep (c &&& 0xFF00) b) ∧
  (∀ (x : Byte), crcStep (joinBytes x 0x00) 0x00 = crcStep 0x0000 x) ∧
  crcStep 0xFFFF 0xFF = 0xFF00 ∧ crcStep 0xABCD 0xAB = 0xCD00 ∧ crcStep 0x0000 0x00 = 0x0000 ∧ crcStep 0x0000 0x01 = 0x1021 ∧
  crcStep 0x0000 0x80 = 0x9188 ∧ crcStep 0x0001 0x00 = 0x0100 ∧ crcStep 0x8000 0x00 = 0x9188 ∧
  (subSteps 0x0000 0x80).quick3 = 0x0088 ∧ (subSteps 0x0000 0x80).quick6 = 0x8000

/-- The update is injective in the byte for a fixed accumulator and a bijection of the accumulator for a fixed byte; the spec marks
this as derived. -/
def Obligations.CrcStepLosesNothing : Prop :=
  (∀ (c : Word) (b b' : Byte), crcStep c b = crcStep c b' → b = b') ∧
  (∀ (b : Byte) (c c' : Word), crcStep c b = crcStep c' b → c = c') ∧
  (∀ (b : Byte) (n : Word), ∃ c : Word, crcStep c b = n)

/-- The fold: its two equations, and a list taken in two parts; the spec marks this as derived from the update. -/
def Obligations.FoldOfConcatenation : Prop :=
  (∀ a : Word, crcFold a [] = a) ∧
  (∀ (a : Word) (b : Byte) (m : List Byte), crcFold a (b :: m) = crcFold (crcStep a b) m) ∧
  (∀ (a : Word) (m1 m2 : List Byte), crcFold a (m1 ++ m2) = crcFold (crcFold a m1) m2)

/-! ## The reference procedure and the message procedure (42_message_procedure.md) -/

/-- R131. `compute_crc` fails with `InvalidArgument(length, len(message))` exactly where `length` exceeds the number of bytes, and
then returns no value; it fails nowhere else. -/
def Obligations.ComputeCrcChecksItsLength : Prop :=
  ∀ (m : List Byte) (length : BitVec 8),
    (m.length < length.toNat → computeCrc m length = .error (.invalidArgument length.toNat m.length)) ∧
    (length.toNat ≤ m.length → ∃ v, computeCrc m length = .ok v)

/-- R132. Where the precondition holds, `compute_crc(message, length) = CRCFOLD(SEED, message[0..length))`: no final XOR. -/
def Obligations.ComputeCrcFoldsThePrefix : Prop :=
  ∀ (m : List Byte) (length : BitVec 8), length.toNat ≤ m.length →
    computeCrc m length = .ok (crcFold 0xFFFF (m.take length.toNat))

/-- R133. `compute_crc(m, 0) = 0xFFFF` for every `m`, including the empty message. -/
def Obligations.EmptyInputGivesTheSeed : Prop :=
  ∀ m : List Byte, computeCrc m 0 = .ok 0xFFFF

/-- R138. `compute_crc(m, k)` depends only on the first `k` bytes: bytes appended or changed after index `k` do not matter. -/
def Obligations.LaterBytesDoNotMatter : Prop :=
  ∀ (m m' : List Byte) (k : BitVec 8), k.toNat ≤ m.length → m'.take k.toNat = m.take k.toNat → k.toNat ≤ m'.length →
    computeCrc m' k = computeCrc m k

/-- Order matters: the two witnesses the spec derives from its algorithm. -/
def Obligations.OrderOfBytesMatters : Prop :=
  computeCrc [0x12, 0x34] 2 = .ok 0x0EC9 ∧ computeCrc [0x34, 0x12] 2 = .ok 0xE62D ∧
  computeCrc [0x01, 0x02] 2 = .ok 0x0E7C ∧ computeCrc [0x02, 0x01] 2 = .ok 0x6B4C

/-- The check value: the CRC of the nine ASCII bytes "123456789", which the spec derives from its fold. -/
def Obligations.CheckValue : Prop :=
  computeCrc [0x31, 0x32, 0x33, 0x34, 0x35, 0x36, 0x37, 0x38, 0x39] 9 = .ok 0x29B1

/-- Adequacy, which the spec derives by induction. Every prefix of a host sequence for `m` that holds the seed load completes from
every state, `Unwritten` included, with the CRC of the bytes consumed so far; the whole sequence gives the CRC of `m`; nothing but
`crc` changes; and up to 255 bytes that is what `compute_crc` returns, whatever bytes follow. -/
def Obligations.MessageSequenceGivesItsCrc : Prop :=
  (∀ (s : State) (cmds rest : List Instr) (m : List Byte), isMessage (cmds ++ rest) m = true → dropNops cmds ≠ [] →
    execAll cmds s = .next { s with crc := .val (crcFold 0xFFFF (m.take (cmds.countP consumesByte))) }) ∧
  (∀ (s : State) (cmds : List Instr) (m : List Byte), isMessage cmds m = true →
    execAll cmds s = .next { s with crc := .val (crcFold 0xFFFF m) }) ∧
  (∀ m r : List Byte, m.length ≤ 255 → computeCrc (m ++ r) (BitVec.ofNat 8 m.length) = .ok (crcFold 0xFFFF m))

/-- A message takes n edges in form B and n + 1 in form A, plus its NOPs, and the block holds its CRC right after them. -/
def Obligations.MessageTakesOneEdgePerCommand : Prop :=
  ∀ (s : State) (edges : List Pins) (cmds : List Instr) (m : List Byte) (rest : List HostMove),
    edges.map decodePins = cmds.map .ok → isMessage cmds m = true →
    Host.Core.run core edges.length { s with pending := edges.map .edge ++ rest } =
      .next { s with crc := .val (crcFold 0xFFFF m), pending := rest, edge := s.edge + edges.length } ∧
    (edges.length = m.length + cmds.count .nop ∨ edges.length = m.length + 1 + cmds.count .nop)

/-- Inserting or removing NOPs anywhere changes no result: two sequences equal but for NOPs do the same; the spec marks this as
derived. -/
def Obligations.StallsChangeNoResult : Prop :=
  ∀ (s : State) (cmds cmds' : List Instr), dropNops cmds = dropNops cmds' → execAll cmds s = execAll cmds' s

/-- UPDATEs continue the fold from whatever `crc` holds: without a seed load between them, two messages are one; from `Unwritten` nothing
is ever written; and INIT_UPDATE is INIT and then UPDATE. The spec marks all three as derived. -/
def Obligations.UpdatesContinueTheFold : Prop :=
  (∀ (s : State) (b : Byte), exec (.initUpdate b) s = execAll [.init, .update b] s) ∧
  (∀ (s : State) (a : Word) (m : List Byte),
    execAll (m.map .update) { s with crc := .val a } = .next { s with crc := .val (crcFold a m) }) ∧
  (∀ (s : State) (m1 m2 : List Byte),
    execAll (.init :: m1.map .update ++ m2.map .update) s = .next { s with crc := .val (crcFold 0xFFFF (m1 ++ m2)) }) ∧
  (∀ (s : State) (m : List Byte), execAll (m.map .update) { s with crc := .unwritten } = .next { s with crc := .unwritten })

/-- The residue check, which the spec derives: a message followed by its CRC, high byte first, folds to zero; low byte first it does
not in general. -/
def Obligations.ResidueIsZeroHighByteFirst : Prop :=
  (∀ m : List Byte, crcFold 0xFFFF (m ++ [hiByte (crcFold 0xFFFF m), loByte (crcFold 0xFFFF m)]) = 0x0000) ∧
  crcFold 0xFFFF [0x31, 0x32, 0x33, 0x34, 0x35, 0x36, 0x37, 0x38, 0x39, 0xB1, 0x29] = 0x93F3

/-! ## Safety and whole-machine rules -/

/-- The outcomes of a step, exactly: a step faults only at an observation of an `Unwritten` accumulator and refuses only at an edge
with an undefined deciding bit, each with what the spec's table of outcomes records; every other step completes. That a refusal names
every undefined deciding bit is the model's reading of "the bit" (log entry 7). -/
def Obligations.StepStopsOnlyAsTheSpecSays : Prop :=
  (∀ (p : Pins) (bits : List Nat), decodePins p = .error bits → bits ≠ [] ∧ ∀ n, n ∈ bits ↔
    (n = 10 ∧ p.rst = .undef) ∨ (n = 9 ∧ p.rst = .low ∧ p.init = .undef) ∨ (n = 8 ∧ p.rst = .low ∧ p.dinValid = .undef) ∨
    (p.rst = .low ∧ p.dinValid = .high ∧ ∃ k : Fin 8, n = k.val ∧ p.din[k] = .undef)) ∧
  ∀ s : State,
    (∀ f, step s = .fault f ↔ f = .unwrittenRead s.edge ∧ s.crc = .unwritten ∧ ∃ rest, s.pending = .observe :: rest) ∧
    (∀ r, step s = .refused r ↔
      ∃ p rest bits, s.pending = .edge p :: rest ∧ decodePins p = .error bits ∧ r = .undefinedInput s.edge bits)

/-- The invariant of a safe state, kept by every step: where no pending move would record a fault or a refusal, the step completes,
and the next state is safe too. -/
def Obligations.SafeStatesStepToSafeStates : Prop :=
  ∀ s : State, s.Safe → ∃ t, step s = .next t ∧ t.Safe

/-- `Safe` is exact: a state is safe if and only if no number of steps from it records a fault or a refusal. -/
def Obligations.SafeExactlyWhenNoRunStops : Prop :=
  ∀ s : State, s.Safe ↔ ∀ n : Nat, ∃ t, Host.Core.run core n s = .next t

/-- R174. Under the launch premise, a sequence that starts with a seed load and whose deciding bits are all two-valued, no fault and
no refusal occurs, from every content of `crc`; and the first step makes `crc` defined. -/
def Obligations.LaunchPremiseExcludesStops : Prop :=
  ∀ s : State, s.Launch →
    (∃ t v, step s = .next t ∧ t.crc = .val v) ∧ ∀ n : Nat, ∃ t, Host.Core.run core n s = .next t

/-- The reset state is safe and its record of observations is consistent. -/
def Obligations.ResetMeetsTheInvariants : Prop :=
  State.reset.Safe ∧ State.reset.SeenConsistent

/-- The invariant that `crc_out` holds its value between edges, kept by every step from every state: what the host has seen is dated no
later than now, agrees with `crc` for the current interval, and never shows two values in one interval. The record and the edge index
are the model's own (log entries 2 and 3). -/
def Obligations.SeenConsistencyIsKept : Prop :=
  ∀ s t : State, s.SeenConsistent → step s = .next t → t.SeenConsistent

/-- The only values ever written into `crc` are the seed and results of the update. At every edge the step's command decides what `crc`
becomes, and the edge index, the model's own count (log entry 2), grows by one; where the move is no edge the index stays, and `crc` is
held, unless power returns, which leaves it `Unwritten` (the model's reading, log entry 5). -/
def Obligations.OnlySeedAndUpdatesAreWritten : Prop :=
  ∀ s t : State, step s = .next t →
    (∃ p rest i, s.pending = .edge p :: rest ∧ decodePins p = .ok i ∧ t.edge = s.edge + 1 ∧ t.seen = s.seen ∧
      ((i = .nop ∧ t.crc = s.crc) ∨ ((i = .init ∨ i = .reset) ∧ t.crc = .val 0xFFFF) ∨
        (∃ b, i = .initUpdate b ∧ t.crc = .val (crcStep 0xFFFF b)) ∨
        (∃ b v, i = .update b ∧ s.crc = .val v ∧ t.crc = .val (crcStep v b)) ∨
        (∃ b, i = .update b ∧ s.crc = .unwritten ∧ t.crc = .unwritten))) ∨
    ((∀ p rest, s.pending ≠ .edge p :: rest) ∧ t.edge = s.edge ∧
      (((∀ rest, s.pending ≠ .powerOn :: rest) ∧ t.crc = s.crc) ∨
        ((∃ rest, s.pending = .powerOn :: rest) ∧ t.crc = .unwritten ∧ t.seen = s.seen)))

/-- `crc` becomes defined at a seed load and at nothing else, and loses its value only when power returns (the model's reading, log
entry 5). -/
def Obligations.WrittenFromTheFirstSeedLoadOn : Prop :=
  ∀ s t : State, step s = .next t →
    (s.crc = .unwritten → (t.crc ≠ .unwritten ↔
      ∃ p rest i, s.pending = .edge p :: rest ∧ decodePins p = .ok i ∧ seedLoad i = true)) ∧
    (s.crc ≠ .unwritten → (t.crc = .unwritten ↔ ∃ rest, s.pending = .powerOn :: rest))

/-- What a step does depends on the content of `crc` and on the host's moves alone: two states that agree on both step to states that
agree on both, whatever the edge index and the record of observations are. The spec marks determinism as derived. -/
def Obligations.NextAccumulatorDependsOnCrcAndInputs : Prop :=
  ∀ s s' : State, s.crc = s'.crc → s.pending = s'.pending →
    (∀ t, step s = .next t → ∃ t', step s' = .next t' ∧ t'.crc = t.crc ∧ t'.pending = t.pending) ∧
    ((∃ f, step s = .fault f) → ∃ f, step s' = .fault f) ∧
    ((∃ r, step s = .refused r) → ∃ r, step s' = .refused r)

/-! ## Systems of several instances -/

/-- R52. A move at one block is a step of that block and changes no other; and moves at two different blocks give the same system in
either order: no state is shared. -/
def Obligations.InstancesShareNothing : Prop :=
  ∀ (nInst : Nat) (sys : System nInst) (j k : Fin nInst), j ≠ k →
    (∀ sys', sys.stepBlock j = .next sys' → step sys.blocks[j] = .next sys'.blocks[j] ∧ sys'.blocks[k] = sys.blocks[k]) ∧
    (∀ sys' sys'', sys.stepBlock j = .next sys' → sys'.stepBlock k = .next sys'' →
      ∃ mid, sys.stepBlock k = .next mid ∧ mid.stepBlock j = .next sys'')

/-! ## The assembler -/

/-- The text a disassembler prints for a command is read back as that command, and assembles to its word, with every ignored field 0. -/
def Obligations.PrintedCommandsReadBack : Prop :=
  ∀ i : Instr, ∃ l, readLine (printInstr i) = .ok (some l) ∧ expandLine l = [i] ∧ assembleLine l = some [encode i]

/-- The pseudo-instructions expand as the spec's table gives; MSG and MSGF of a non-empty list leave the same value, the CRC of the
list, and MSGF takes one edge fewer. -/
def Obligations.PseudoInstructionsExpand : Prop :=
  (∀ k : Nat, expandLine (.wait k) = List.replicate k .nop) ∧
  expandLine (.msg []) = [.init] ∧
  (∀ m : List Byte, expandLine (.msg (m.map (·.toNat))) = .init :: m.map .update) ∧
  (∀ (b : Byte) (m : List Byte), expandLine (.msgf ((b :: m).map (·.toNat))) = .initUpdate b :: m.map .update) ∧
  (∀ m : List Byte, expandLine (.bytes (m.map (·.toNat))) = m.map .update) ∧
  (∀ (m : List Byte) (s : State), m ≠ [] →
    execAll (expandLine (.msg (m.map (·.toNat)))) s = .next { s with crc := .val (crcFold 0xFFFF m) } ∧
    execAll (expandLine (.msgf (m.map (·.toNat)))) s = .next { s with crc := .val (crcFold 0xFFFF m) } ∧
    (expandLine (.msgf (m.map (·.toNat)))).length + 1 = (expandLine (.msg (m.map (·.toNat)))).length)
end

