-- ==== Sys2Proof/Laws/Datapath.lean ====
section
/-! SUPPORT. Small facts of the datapath: the bits of the bytes of a word, the update as one expression, and the fold. -/

namespace Sys2Proof.Machine

/-- The update without its named wires. -/
theorem crcStep_eq (c : Word) (b : Byte) :
    crcStep c b =
      (c <<< 8) ^^^ (((c >>> 8) ^^^ zext16 b) ^^^ (((c >>> 8) ^^^ zext16 b) >>> 4)) ^^^
        ((((c >>> 8) ^^^ zext16 b) ^^^ (((c >>> 8) ^^^ zext16 b) >>> 4)) <<< 5) ^^^
        (((((c >>> 8) ^^^ zext16 b) ^^^ (((c >>> 8) ^^^ zext16 b) >>> 4)) <<< 5) <<< 7) := rfl

theorem getLsbD_zext16 (b : Byte) (k : Nat) : (zext16 b).getLsbD k = b.getLsbD k := by
  have : 8 ≤ k → b.getLsbD k = false := fun h => BitVec.getLsbD_of_ge b k h
  by_cases h : k < 16
  · simp [zext16, h]
  · simp [zext16, h, this (by omega)]

theorem getLsbD_hiByte (v : Word) (k : Nat) : (hiByte v).getLsbD k = (decide (k < 8) && v.getLsbD (8 + k)) := by
  simp [hiByte]

theorem getLsbD_loByte (v : Word) (k : Nat) : (loByte v).getLsbD k = (decide (k < 8) && v.getLsbD k) := by
  simp [loByte]

theorem getLsbD_joinBytes (h l : Byte) (k : Nat) :
    (joinBytes h l).getLsbD k = if k < 8 then l.getLsbD k else h.getLsbD (k - 8) := by
  simp only [joinBytes, BitVec.getLsbD_or, BitVec.getLsbD_shiftLeft, getLsbD_zext16]
  by_cases hk : k < 8
  · simp [hk]
  · have hl : l.getLsbD k = false := BitVec.getLsbD_of_ge l k (by omega)
    by_cases hk' : k < 16
    · simp [hk, hk', hl]
    · simp [hk, hk', hl, BitVec.getLsbD_of_ge h (k - 8) (by omega)]

/-- The high byte of a word of two bytes. -/
@[simp] theorem hiByte_joinBytes (h l : Byte) : hiByte (joinBytes h l) = h := by
  apply BitVec.eq_of_getLsbD_eq
  intro k hk
  rw [getLsbD_hiByte, getLsbD_joinBytes]
  simp [hk]

/-- The low byte of a word of two bytes. -/
@[simp] theorem loByte_joinBytes (h l : Byte) : loByte (joinBytes h l) = l := by
  apply BitVec.eq_of_getLsbD_eq
  intro k hk
  rw [getLsbD_loByte, getLsbD_joinBytes]
  simp [hk]

/-- A word is its two bytes. -/
@[simp] theorem joinBytes_hiByte_loByte (v : Word) : joinBytes (hiByte v) (loByte v) = v := by
  apply BitVec.eq_of_getLsbD_eq
  intro k hk
  rw [getLsbD_joinBytes, getLsbD_hiByte, getLsbD_loByte]
  by_cases h : k < 8
  · simp [h]
  · have h1 : k - 8 < 8 := by omega
    have h2 : 8 + (k - 8) = k := by omega
    simp [h, h1, h2]

theorem hiByte_xor (v w : Word) : hiByte (v ^^^ w) = hiByte v ^^^ hiByte w := by
  simp [hiByte, BitVec.extractLsb'_xor]

theorem loByte_xor (v w : Word) : loByte (v ^^^ w) = loByte v ^^^ loByte w := by
  simp [loByte, BitVec.extractLsb'_xor]

@[simp] theorem crcFold_nil (a : Word) : crcFold a [] = a := rfl
@[simp] theorem crcFold_cons (a : Word) (b : Byte) (m : List Byte) : crcFold a (b :: m) = crcFold (crcStep a b) m := rfl

end Sys2Proof.Machine
end

