-- ==== Sys2Proof/Laws/Decode.lean ====
section
/-! SUPPORT. Small facts of the decoder and the encoder: the fields of a command word, the levels of driven and sampled pins. -/

namespace Sys2Proof

/-! ## The fields of a command word -/

@[simp] theorem commandWord_bit10 (r i v : Bool) (d : Byte) : (commandWord r i v d)[10] = r := by
  simp [commandWord]

@[simp] theorem commandWord_bit9 (r i v : Bool) (d : Byte) : (commandWord r i v d)[9] = i := by
  simp [commandWord]

@[simp] theorem commandWord_bit8 (r i v : Bool) (d : Byte) : (commandWord r i v d)[8] = v := by
  simp [commandWord]

@[simp] theorem dataField_commandWord (r i v : Bool) (d : Byte) : dataField (commandWord r i v d) = d := by
  ext k hk
  have h9 : k < 9 := by omega
  have h10 : k < 10 := by omega
  have h11 : k < 11 := by omega
  simp [dataField, commandWord, hk, h9, h10, h11]

/-- The decode of a word given by its fields (R62). -/
theorem decode_commandWord (r i v : Bool) (d : Byte) :
    decode (commandWord r i v d) =
      if r then .reset else if i then (if v then .initUpdate d else .init) else (if v then .update d else .nop) := by
  simp [decode]

/-- A word is its fields. -/
theorem commandWord_fields (cw : CommandWord) :
    commandWord (cw.getLsbD 10) (cw.getLsbD 9) (cw.getLsbD 8) (dataField cw) = cw := by
  ext k hk
  have : k < 8 ∨ k = 8 ∨ k = 9 ∨ k = 10 := by omega
  rcases this with h | rfl | rfl | rfl
  · have h9 : k < 9 := by omega
    have h10 : k < 10 := by omega
    simp [commandWord, dataField, *]
  all_goals simp [commandWord, dataField]

/-! ## Levels -/

@[simp] theorem Level.ofBool_eq_high (b : Bool) : Level.ofBool b = .high ↔ b = true := by cases b <;> decide
@[simp] theorem Level.ofBool_eq_low (b : Bool) : Level.ofBool b = .low ↔ b = false := by cases b <;> decide
@[simp] theorem Level.ofBool_ne_undef (b : Bool) : Level.ofBool b ≠ .undef := by cases b <;> decide

/-! ## The levels of driven pins -/

@[simp] theorem Pins.ofWord_rst (cw : CommandWord) : (Pins.ofWord cw).rst = Level.ofBool (cw.getLsbD 10) := rfl
@[simp] theorem Pins.ofWord_init (cw : CommandWord) : (Pins.ofWord cw).init = Level.ofBool (cw.getLsbD 9) := rfl
@[simp] theorem Pins.ofWord_dinValid (cw : CommandWord) : (Pins.ofWord cw).dinValid = Level.ofBool (cw.getLsbD 8) := rfl

theorem Pins.ofWord_din (cw : CommandWord) (k : Nat) (h : k < 8) : (Pins.ofWord cw).din[k] = Level.ofBool (cw.getLsbD k) := by
  interval_cases k <;> rfl

/-- Every level of driven pins is its bit's. -/
theorem Pins.level_ofWord (cw : CommandWord) (n : Nat) (h : n < 11) : (Pins.ofWord cw).level n = Level.ofBool (cw.getLsbD n) := by
  interval_cases n <;> rfl

/-- Driven pins have no undefined deciding bit. -/
theorem Pins.undefinedDeciding_ofWord (cw : CommandWord) : (Pins.ofWord cw).undefinedDeciding = [] := by
  simp only [Pins.undefinedDeciding, List.filter_eq_nil_iff]
  intro n hn
  have h : n < 11 := by
    simp only [Pins.deciding] at hn
    split at hn <;> simp at hn <;> omega
  simp [Pins.level_ofWord cw n h]

/-- Driven pins carry the word they were driven with. -/
theorem Pins.word_ofWord (cw : CommandWord) : (Pins.ofWord cw).word = cw := by
  have hb : (BitVec.ofFnLE fun i : Fin 8 => decide ((Pins.ofWord cw).din[i] = .high)) = dataField cw := by
    ext k hk
    simp [dataField, Pins.ofWord_din cw k hk]
  simp only [Pins.word]
  rw [hb]
  simpa using commandWord_fields cw

/-- Pins decode to a command exactly where no deciding bit is undefined. -/
theorem decodePins_ok_iff (p : Pins) (i : Instr) :
    decodePins p = .ok i ↔ p.undefinedDeciding = [] ∧ decode p.word = i := by
  unfold decodePins
  split <;> simp_all

/-- Pins are rejected exactly by their undefined deciding bits. -/
theorem decodePins_error_iff (p : Pins) (bits : List Nat) :
    decodePins p = .error bits ↔ p.undefinedDeciding = bits ∧ bits ≠ [] := by
  unfold decodePins
  split
  · constructor
    · simp
    · rintro ⟨rfl, h⟩
      contradiction
  · rename_i n ns hp
    rw [hp]
    constructor
    · rintro ⟨⟩
      exact ⟨rfl, by simp⟩
    · rintro ⟨rfl, -⟩
      rfl

end Sys2Proof
end

