-- ==== Sys2Proof/Laws/State.lean ====
section
/-! SUPPORT. One lemma per field per update of State, and the reads of the reset and power-on states. -/

namespace Sys2Proof.Machine

/-! `setCrc` -/

@[simp] theorem State.setCrc_crc (s : State) (a : Acc) : (s.setCrc a).crc = a := rfl
@[simp] theorem State.setCrc_pending (s : State) (a : Acc) : (s.setCrc a).pending = s.pending := rfl
@[simp] theorem State.setCrc_edge (s : State) (a : Acc) : (s.setCrc a).edge = s.edge := rfl
@[simp] theorem State.setCrc_seen (s : State) (a : Acc) : (s.setCrc a).seen = s.seen := rfl

/-! `loadSeed` -/

@[simp] theorem State.loadSeed_crc (s : State) : s.loadSeed.crc = .val seed := rfl
@[simp] theorem State.loadSeed_pending (s : State) : s.loadSeed.pending = s.pending := rfl
@[simp] theorem State.loadSeed_edge (s : State) : s.loadSeed.edge = s.edge := rfl
@[simp] theorem State.loadSeed_seen (s : State) : s.loadSeed.seen = s.seen := rfl

/-! `clock` -/

@[simp] theorem State.clock_crc (s : State) (rest : List HostMove) : (s.clock rest).crc = s.crc := rfl
@[simp] theorem State.clock_pending (s : State) (rest : List HostMove) : (s.clock rest).pending = rest := rfl
@[simp] theorem State.clock_edge (s : State) (rest : List HostMove) : (s.clock rest).edge = s.edge + 1 := rfl
@[simp] theorem State.clock_seen (s : State) (rest : List HostMove) : (s.clock rest).seen = s.seen := rfl

/-! `powerUp` -/

@[simp] theorem State.powerUp_crc (s : State) (rest : List HostMove) : (s.powerUp rest).crc = .unwritten := rfl
@[simp] theorem State.powerUp_pending (s : State) (rest : List HostMove) : (s.powerUp rest).pending = rest := rfl
@[simp] theorem State.powerUp_edge (s : State) (rest : List HostMove) : (s.powerUp rest).edge = s.edge := rfl
@[simp] theorem State.powerUp_seen (s : State) (rest : List HostMove) : (s.powerUp rest).seen = s.seen := rfl

/-! `drive` -/

@[simp] theorem State.drive_crc (s : State) (edges : List Pins) : (s.drive edges).crc = s.crc := rfl
@[simp] theorem State.drive_pending (s : State) (edges : List Pins) : (s.drive edges).pending = edges.map .edge ++ s.pending := rfl
@[simp] theorem State.drive_edge (s : State) (edges : List Pins) : (s.drive edges).edge = s.edge := rfl
@[simp] theorem State.drive_seen (s : State) (edges : List Pins) : (s.drive edges).seen = s.seen := rfl

/-! The accumulator after a byte -/

@[simp] theorem Acc.consume_unwritten (b : Byte) : Acc.consume .unwritten b = .unwritten := rfl
@[simp] theorem Acc.consume_val (v : Word) (b : Byte) : Acc.consume (.val v) b = .val (crcStep v b) := rfl

end Sys2Proof.Machine
end

