-- ==== Sys2Proof/Laws/Ops.lean ====
section
/-! SUPPORT. What each named operation can do, said once. -/

namespace Sys2Proof.Machine

/-- What `crc_out` reads of a written accumulator (R107). -/
theorem State.crcOut_val {s : State} {v : Word} (h : s.crc = .val v) : s.crcOut = .ok v := by
  simp [State.crcOut, h]

/-- What `crc_out` reads of an unwritten accumulator (R107). -/
theorem State.crcOut_unwritten {s : State} (h : s.crc = .unwritten) : s.crcOut = .error (.unwrittenRead s.edge) := by
  simp [State.crcOut, h]

/-- An observation of a written accumulator is recorded. -/
theorem observe_val {s : State} {v : Word} (rest : List HostMove) (h : s.crc = .val v) :
    observe rest s = .next { s with pending := rest, seen := s.seen ++ [(s.edge, v)] } := by
  simp [observe, State.crcOut_val h]

/-- An observation of an unwritten accumulator is a fault. -/
theorem observe_unwritten {s : State} (rest : List HostMove) (h : s.crc = .unwritten) :
    observe rest s = .fault (.unwrittenRead s.edge) := by
  simp [observe, State.crcOut_unwritten h]

/-- Everything an observation can do: it completes on a written accumulator, or faults on an unwritten one. -/
theorem observe_cases (rest : List HostMove) (s : State) :
    (∃ v, s.crc = .val v ∧ observe rest s = .next { s with pending := rest, seen := s.seen ++ [(s.edge, v)] }) ∨
    (s.crc = .unwritten ∧ observe rest s = .fault (.unwrittenRead s.edge)) := by
  cases h : s.crc with
  | unwritten => exact .inr ⟨rfl, observe_unwritten rest h⟩
  | val v => exact .inl ⟨v, rfl, by simpa [h] using observe_val rest h⟩

end Sys2Proof.Machine
end

