-- ==== Sys2Proof/Laws/PerInstr.lean ====
section
/-! SUPPORT. Facts of every command as syntax, command by command. -/

namespace Sys2Proof.Laws.TableRow

/-- The encoder's word of a command is of the command's row, its operand is a byte, and every ignored bit of it is 0 (R62, R67). -/
def Statement (i : Instr) : Prop :=
  i.wf = true ∧ i.row.applies (encode i) = true ∧
    (decode (encode i) = .reset ∨ decode (encode i) = .init ∨ decode (encode i) = .nop → encode i = i.row.pattern)

theorem reset : Statement .reset := by
  refine ⟨by decide, by decide, by decide⟩

theorem initUpdate (b : Byte) : Statement (.initUpdate b) := by
  refine ⟨by simpa [Instr.wf, byteNumeral, Config.dataWidth] using b.isLt, ?_, by simp [encode, decode_commandWord]⟩
  simp only [Instr.row, OpcodeRow.applies, encode, beq_iff_eq]
  ext k hk
  interval_cases k <;> simp [commandWord]

theorem init : Statement .init := by
  refine ⟨by decide, by decide, by decide⟩

theorem update (b : Byte) : Statement (.update b) := by
  refine ⟨by simpa [Instr.wf, byteNumeral, Config.dataWidth] using b.isLt, ?_, by simp [encode, decode_commandWord]⟩
  simp only [Instr.row, OpcodeRow.applies, encode, beq_iff_eq]
  ext k hk
  interval_cases k <;> simp [commandWord]

theorem nop : Statement .nop := by
  refine ⟨by decide, by decide, by decide⟩

end Sys2Proof.Laws.TableRow
end

