-- ==== Sys2Proof/Laws/Step.lean ====
section
/-! SUPPORT. What a command and a step can do, said once. -/

namespace Sys2Proof.Machine

/-- What a command leaves in the accumulator (R106): the one thing it can change. -/
def Acc.after (a : Acc) : Instr → Acc
  | .reset => .val seed
  | .initUpdate b => .val (crcStep seed b)
  | .init => .val seed
  | .update b => a.consume b
  | .nop => a

/-- Everything a command can do: it completes, and changes nothing but the accumulator. -/
theorem exec_eq (i : Instr) (s : State) : exec i s = .next (s.setCrc (s.crc.after i)) := by
  cases i <;> rfl

/-- An edge whose levels decode is the command's execution. -/
theorem step_edge_ok {s : State} {p : Pins} {rest : List HostMove} {i : Instr} (hs : s.pending = .edge p :: rest)
    (hp : decodePins p = .ok i) : step s = exec i (s.clock rest) := by
  simp [step, hs, hp]

/-- An edge with undefined deciding levels is refused. -/
theorem step_edge_error {s : State} {p : Pins} {rest : List HostMove} {bits : List Nat} (hs : s.pending = .edge p :: rest)
    (hp : decodePins p = .error bits) : step s = .refused (.undefinedInput s.edge bits) := by
  simp [step, hs, hp, refuseInput]

theorem step_observe {s : State} {rest : List HostMove} (hs : s.pending = .observe :: rest) : step s = observe rest s := by
  simp [step, hs]

theorem step_powerOn {s : State} {rest : List HostMove} (hs : s.pending = .powerOn :: rest) : step s = .next (s.powerUp rest) := by
  simp [step, hs]

theorem step_idle {s : State} (hs : s.pending = []) : step s = .next s := by
  simp [step, hs, idle]

/-- The inversion of a step: if it answers a next state, one of these cases holds. -/
theorem step_next_cases {s t : State} (h : step s = .next t) :
    (s.pending = [] ∧ t = s) ∨
    (∃ p rest i, s.pending = .edge p :: rest ∧ decodePins p = .ok i ∧ t = (s.clock rest).setCrc (s.crc.after i)) ∨
    (∃ rest v, s.pending = .observe :: rest ∧ s.crc = .val v ∧
      t = { s with pending := rest, seen := s.seen ++ [(s.edge, v)] }) ∨
    (∃ rest, s.pending = .powerOn :: rest ∧ t = s.powerUp rest) := by
  match hs : s.pending with
  | [] => exact .inl ⟨rfl, by simpa [step_idle hs] using h.symm⟩
  | .edge p :: rest =>
    cases hp : decodePins p with
    | ok i => exact .inr (.inl ⟨p, rest, i, rfl, hp, by simpa [step_edge_ok hs hp, exec_eq] using h.symm⟩)
    | error bits => simp [step_edge_error hs hp] at h
  | .observe :: rest =>
    rcases observe_cases rest s with ⟨v, hv, ho⟩ | ⟨_, ho⟩
    · exact .inr (.inr (.inl ⟨rest, v, rfl, hv, by simpa [step_observe hs, ho] using h.symm⟩))
    · simp [step_observe hs, ho] at h
  | .powerOn :: rest => exact .inr (.inr (.inr ⟨rest, rfl, by simpa [step_powerOn hs] using h.symm⟩))

/-! ## Runs and sequences -/

theorem run_zero (s : State) : Host.Core.run core 0 s = .next s := rfl

/-- A run of one step is the step. -/
theorem run_one (s : State) : Host.Core.run core 1 s = step s := by
  have h (o : Host.Outcome State Fault Refusal) (ho : step s = o) : Host.Core.run core 1 s = o := by
    have h' : core.step s = o := ho
    cases o <;> simp only [Host.Core.run, h'] <;> rfl
  exact h _ rfl

/-- A run whose first step completes goes on from the next state. -/
theorem run_next {s t : State} (h : step s = .next t) (n : Nat) : Host.Core.run core (n + 1) s = Host.Core.run core n t := by
  have h' : core.step s = .next t := h
  simp only [Host.Core.run, h']

/-- A fault is never cleared by a later step (R10). -/
theorem run_fault {s : State} {f : Fault} (h : step s = .fault f) (n : Nat) : Host.Core.run core (n + 1) s = .fault f := by
  have h' : core.step s = .fault f := h
  simp only [Host.Core.run, h']

/-- A refusal is never cleared by a later step (R10). -/
theorem run_refused {s : State} {r : Refusal} (h : step s = .refused r) (n : Nat) :
    Host.Core.run core (n + 1) s = .refused r := by
  have h' : core.step s = .refused r := h
  simp only [Host.Core.run, h']

/-- A run in two parts: where the first completes, the second goes on from its end. -/
theorem run_add {a : Nat} (b : Nat) {s t : State} (h : Host.Core.run core a s = .next t) :
    Host.Core.run core (a + b) s = Host.Core.run core b t := by
  induction a generalizing s with
  | zero =>
    have h' : s = t := by rw [run_zero] at h; injection h
    rw [h', Nat.zero_add]
  | succ a ih =>
    rw [show a + 1 + b = (a + b) + 1 by omega]
    cases hs : step s with
    | next u => rw [run_next hs] at h ⊢; exact ih h
    | fault f => rw [run_fault hs] at h; simp at h
    | refused r => rw [run_refused hs] at h; simp at h

@[simp] theorem execAll_nil (s : State) : execAll [] s = .next s := rfl

/-- A sequence goes on from its first command's next state. -/
theorem execAll_cons (i : Instr) (is : List Instr) (s : State) :
    execAll (i :: is) s = execAll is (s.setCrc (s.crc.after i)) := by
  simp [execAll, exec_eq]

/-- Everything a sequence can do: it completes, and changes nothing but the accumulator. -/
theorem execAll_eq (cmds : List Instr) (s : State) : execAll cmds s = .next (s.setCrc (cmds.foldl Acc.after s.crc)) := by
  induction cmds generalizing s with
  | nil => rfl
  | cons i is ih => rw [execAll_cons, ih]; rfl

end Sys2Proof.Machine
end

