-- ==== Sys2Proof/Laws/System.lean ====
section
/-! SUPPORT. What a move at one block of a system, and a call of the reference procedure, can do, said once. -/

namespace Sys2Proof.Machine

/-- If a move at block `k` answers a next system, that block stepped, and the system is the old one with that block replaced. -/
theorem stepBlock_next {nInst : Nat} {sys sys' : System nInst} {k : Fin nInst} (h : sys.stepBlock k = .next sys') :
    ∃ t, step sys.blocks[k] = .next t ∧ sys' = { blocks := sys.blocks.set k t } := by
  unfold System.stepBlock at h
  split at h
  · rename_i t ht
    exact ⟨t, ht, by injection h with h; exact h.symm⟩
  · contradiction
  · contradiction

/-- A call that fails returns no value: what it records is the length and the number of bytes (R131). -/
theorem computeCrc_error {m : List Byte} {length : BitVec 8} {r : Refusal} (h : computeCrc m length = .error r) :
    r = .invalidArgument length.toNat m.length ∧ m.length < length.toNat := by
  unfold computeCrc at h
  split at h
  · rename_i hl
    exact ⟨by injection h with h; exact h.symm, hl⟩
  · contradiction

end Sys2Proof.Machine
end

