-- ==== Sys2Proof/Tests/Slice0.lean ====
section
/-! SUPPORT. Tests: expected results are the spec's own (95_test_vectors.md, and the rules' examples); witnesses for the hypotheses of
the statements. -/

namespace Sys2Proof.Tests

open Sys2Proof.Machine

/-- R7: the values of the block have the widths of its parameters. -/
theorem test_widths : Word = BitVec Config.accWidth ∧ Byte = BitVec Config.dataWidth ∧ CommandWord = BitVec Config.commandWidth :=
  ⟨rfl, rfl, rfl⟩

/-! ## Ill-formed terms are refused -/

theorem test_wf_byte_256_refused : AsmLine.wf (.update 256) = false ∧ AsmLine.wf (.initUpdate 256) = false := by decide
theorem test_wf_list_bytes_refused : AsmLine.wf (.msg [0x12, 256]) = false ∧ AsmLine.wf (.bytes [256]) = false := by decide
theorem test_wf_empty_list_refused : AsmLine.wf (.msgf []) = false ∧ AsmLine.wf (.bytes []) = false := by decide
theorem test_wf_empty_msg_accepted : AsmLine.wf (.msg []) = true := by decide
theorem test_wf_command_twelve_bits_refused : commandNumeral 0x800 = false ∧ commandNumeral 0x7FF = true := by decide
theorem test_wf_instr : Instr.wf (.update 0xFF) = true ∧ Instr.wf .reset = true := by decide

/-! ## Decoding: words written out from R62 (R69; 95_test_vectors.md section 2.5) -/

theorem test_decode_nop : decode 0b00000000000 = .nop ∧ decode 0b00011111111 = .nop := by decide
theorem test_decode_update : decode 0b00100000000 = .update 0x00 ∧ decode 0b00111111111 = .update 0xFF := by decide
theorem test_decode_init : decode 0b01000000000 = .init ∧ decode 0b01010100101 = .init := by decide
theorem test_decode_init_update : decode 0b01100110001 = .initUpdate 0x31 := by decide
theorem test_decode_reset : decode 0b10000000000 = .reset ∧ decode 0b10111111111 = .reset ∧ decode 0b11010101010 = .reset ∧
    decode 0b11111000011 = .reset := by decide

theorem test_encode : [encode .nop, encode .init, encode (.update 0x31), encode (.initUpdate 0x31), encode .reset] =
    [0x000, 0x200, 0x131, 0x331, 0x400] := by decide

theorem test_table_word : decodeTableWord 16 0x334 = some (.initUpdate 0x34) ∧ decodeTableWord 11 0x7C3 = some .reset ∧
    decodeTableWord 16 0x800 = none := by decide

/-! ## Sampled levels (R64, R70) -/

/-- `rst` high, everything else undefined. -/
def resetPins : Pins := ⟨.high, .undef, .undef, Vector.replicate 8 .undef⟩

/-- A NOP with an undefined datum. -/
def nopPins : Pins := ⟨.low, .low, .low, Vector.replicate 8 .undef⟩

/-- An UPDATE whose datum is undefined at `din[3]`. -/
def badPins : Pins := ⟨.low, .low, .high, #v[.low, .low, .low, .undef, .low, .low, .low, .low]⟩

theorem test_pins_ignored : decodePins resetPins = .ok .reset ∧ decodePins nopPins = .ok .nop := by decide
theorem test_pins_datum_undefined : decodePins badPins = .error [3] := by decide
theorem test_pins_controls_undefined :
    decodePins ⟨.low, .undef, .undef, Vector.replicate 8 .low⟩ = .error [9, 8] ∧
    decodePins ⟨.undef, .high, .high, Vector.replicate 8 .low⟩ = .error [10] := by decide

/-! ## The commands, one step each (95_test_vectors.md section 2.6) -/

/-- A block that holds `a` and is presented the word `cw`. -/
def presented (a : Acc) (cw : CommandWord) : State := { State.reset with crc := a, pending := [.edge (Pins.ofWord cw)] }

/-- The accumulator after the next move. -/
def crcNext (s : State) : Option Acc :=
  match step s with
  | .next t => some t.crc
  | .fault _ => none
  | .refused _ => none

/-- K1, K2. -/
theorem test_nop : crcNext (presented (.val 0x3DBA) 0x000) = some (.val 0x3DBA) ∧
    crcNext (presented .unwritten 0x0FF) = some .unwritten := by decide

/-- K3, K4. -/
theorem test_init : crcNext (presented (.val 0xE1F0) 0x200) = some (.val 0xFFFF) ∧
    crcNext (presented .unwritten 0x200) = some (.val 0xFFFF) := by decide

/-- K6, K7, K9. -/
theorem test_update : crcNext (presented (.val 0xFFFF) 0x100) = some (.val 0xE1F0) ∧
    crcNext (presented (.val 0xFFFF) 0x1FF) = some (.val 0xFF00) ∧
    crcNext (presented (.val 0xABCD) 0x1AB) = some (.val 0xCD00) := by decide

/-- K8, K10. -/
theorem test_update_corners : crcNext (presented (.val 0x0000) 0x100) = some (.val 0x0000) ∧
    crcNext (presented .unwritten 0x1AA) = some .unwritten := by decide

/-- K11, K12. -/
theorem test_init_update : crcNext (presented (.val 0x0EC9) 0x334) = some (.val 0x9727) ∧
    crcNext (presented .unwritten 0x331) = some (.val 0xC782) := by decide

/-- K13, K14, K15. -/
theorem test_reset : crcNext (presented (.val 0xB915) 0x5FF) = some (.val 0xFFFF) ∧
    crcNext (presented .unwritten 0x400) = some (.val 0xFFFF) ∧ crcNext (presented (.val 0xE1F0) 0x7C3) = some (.val 0xFFFF) := by decide

/-- A table word presented right after reset is the first command executed. -/
theorem test_fetch_after_reset : crcNext (State.reset.withFetchWord 16 0x131) = some (.val 0xC782) := by decide

/-- R107, and P4's hazard: the observation's value, and its fault. -/
theorem test_observation :
    State.crcOut { State.reset with crc := .val 0xE1F0 } = .ok 0xE1F0 ∧
    State.poweredOn.crcOut = .error (.unwrittenRead 0) := by decide

/-! ## The datapath (95_test_vectors.md sections 2.1 to 2.4) -/

/-- V5: every sub-step. -/
theorem test_substeps : subSteps 0xFFFF 0x31 =
    { temp := 0x00CE, acc2 := 0xFF00, quick3 := 0x00C2, acc4 := 0xFFC2, quick5 := 0x1840, acc5 := 0xE782, quick6 := 0x2000,
      acc6 := 0xC782 } := by decide

/-- V3, V4, V8, V15, V18, V19, V20. -/
theorem test_crcstep : crcStep 0xFFFF 0x01 = 0xF1D1 ∧ crcStep 0xFFFF 0x80 = 0x7078 ∧ crcStep 0x0000 0x10 = 0x1231 ∧
    crcStep 0x1234 0x56 = 0x3C40 ∧ crcStep 0xFFFF 0x0F = 0x101F ∧ crcStep 0xFFFF 0xF0 = 0x0EEF ∧ crcStep 0x5555 0xAA = 0x4BF0 := by
  decide

/-- The first trace of section 2.2, half way and at its end. -/
theorem test_bitstep : bitShifts 4 0xFFFF = 0x0E1F ∧ bitStep 0xFFFF 0x00 = 0xE1F0 := by decide

/-- F21, F24. -/
theorem test_fold : crcFold 0xFFFF [0x41, 0x42, 0x43] = 0xF508 ∧ crcFold 0xFFFF [0x12, 0x34, 0x0E, 0xC9] = 0x0000 := by decide

/-- Section 2.4. -/
theorem test_compute_crc : computeCrc [0x12, 0x34] 1 = .ok 0xD383 ∧ computeCrc [0x12, 0x34] 3 = .error (.invalidArgument 3 2) ∧
    computeCrc [] 1 = .error (.invalidArgument 1 0) := by decide

/-! ## The assembler (R67, R68; P5) -/

theorem test_assemble_msg : assembleLine (.msg [0x00, 0xE1, 0xF0]) = some [0x200, 0x100, 0x1E1, 0x1F0] := by decide
theorem test_assemble_msgf : assembleLine (.msgf [0x12, 0x34]) = some [0x312, 0x134] := by decide
theorem test_read_line : readLine ['M', 'S', 'G', ' ', '0', 'x', '0', '0', ',', ' ', '2', '2', '5', ' ', ';', 'x'] =
    .ok (some (.msg [0, 225])) := by decide
theorem test_read_line_errors : readLine ['U', 'P', 'D', 'A', 'T', 'E', ' ', '2', '5', '6'] = .error .illFormed ∧
    readLine ['S', 'T', 'O', 'P'] = .error .unknownMnemonic ∧ readLine ['I', 'N', 'I', 'T', ' ', '1'] = .error .badOperands ∧
    readLine [' ', ';', 'x'] = .ok none := by decide

/-! ## Witnesses: the hypotheses of the statements can be met -/

/-- A block that holds `0xFFFF`. -/
def written : State := State.reset

theorem witness_exactly_one_row : decode 0x1FF = .update 0xFF ∧ (0xFF : Byte) = BitVec.extractLsb' 0 8 (0x1FF : CommandWord) := by decide

/-- Pins that agree with RESET's word on the deciding bit only. -/
theorem witness_round_trip : ∀ n ∈ (Pins.ofWord (encode .reset)).deciding, resetPins.level n = (Pins.ofWord (encode .reset)).level n := by
  decide

/-- Pins that agree with NOP's word on the deciding bits, with an undefined datum. -/
theorem witness_round_trip_nop : ∀ n ∈ (Pins.ofWord (encode .nop)).deciding, nopPins.level n = (Pins.ofWord (encode .nop)).level n := by
  decide

theorem witness_undefined_level : decodePins badPins = .error [3] := by decide

theorem witness_step_runs : (presented (.val 0xFFFF) 0x131).pending = .edge (Pins.ofWord 0x131) :: [] ∧
    decodePins (Pins.ofWord 0x131) = .ok (.update 0x31) := by decide

theorem witness_observation : written.crc = .val 0xFFFF ∧ State.poweredOn.crc = .unwritten := by decide

theorem witness_no_move : State.reset.pending = [] := by decide

theorem witness_result_one_edge_later : written.crc = .val 0xFFFF ∧
    exec (decode 0x100) written = .next { written with crc := .val 0xE1F0 } := ⟨rfl, rfl⟩

/-- The levels of a message of one byte, in form A with a NOP. -/
def messagePins : List Pins := [Pins.ofWord 0x200, Pins.ofWord 0x0FF, Pins.ofWord 0x141]

/-- Its commands. -/
def messageCmds : List Instr := [.init, .nop, .update 0x41]

theorem witness_run_of_edges : messagePins.map decodePins = messageCmds.map .ok := by decide

theorem witness_message : isMessage messageCmds [0x41] = true ∧ isMessage ([.init] ++ [.nop, .update 0x41]) [0x41] = true ∧
    dropNops [.init] ≠ [] := by decide

/-- Forms A from RESET and B, and the empty message. -/
theorem witness_message_forms : isMessage [.reset, .update 0x12, .update 0x34] [0x12, 0x34] = true ∧
    isMessage [.initUpdate 0x12, .nop, .update 0x34] [0x12, 0x34] = true ∧ isMessage [.init] [] = true ∧
    isMessage [.update 0x12] [0x12] = false := by decide

/-- The end of a run, each clause: a value, no value, and an undefined level after a good edge. -/
theorem witness_run_ends : [Pins.ofWord 0x141].map decodePins = [Instr.update 0x41].map .ok ∧
    execAll [.update 0x41] written = .next { written with crc := .val 0xB915 } ∧
    execAll [.update 0x41] State.poweredOn = .next State.poweredOn ∧ decodePins badPins = .error [3] := by
  refine ⟨by decide, rfl, rfl, by decide⟩

theorem witness_width : (16 : Nat) ≤ 16 := by decide

/-- Two accumulators and bytes that differ, with equal low bytes and equal XORs of the high bytes with the byte. -/
theorem witness_bit_by_bit : loByte 0x8000 = loByte 0x0000 ∧ hiByte 0x8000 ^^^ 0x00 = hiByte 0x0000 ^^^ (0x80 : Byte) := by decide

theorem witness_loses_nothing : crcStep 0xFFFF 0x01 = crcStep 0xFFFF 0x01 := rfl

/-- The precondition of `compute_crc`, on both sides of its boundary. -/
theorem witness_compute_crc : (2 : BitVec 8).toNat ≤ [(0x12 : Byte), 0x34].length ∧
    [(0x12 : Byte), 0x34].length < (3 : BitVec 8).toNat := by decide

theorem witness_later_bytes : ([0x12, 0x34, 0x99] : List Byte).take (2 : BitVec 8).toNat = ([0x12, 0x34] : List Byte).take (2 : BitVec 8).toNat ∧
    (2 : BitVec 8).toNat ≤ ([0x12, 0x34, 0x99] : List Byte).length := by decide

theorem witness_short_message : ([0x41] : List Byte).length ≤ 255 := by decide

theorem witness_stalls : dropNops [.init, .nop, .update 0x41] = dropNops [.nop, .init, .update 0x41, .nop] := by decide

/-- A powered-on block whose host seeds, sends a byte and observes. -/
def launched : State :=
  { State.poweredOn with pending := [.edge (Pins.ofWord 0x200), .edge (Pins.ofWord 0x141), .edge nopPins, .observe] }

theorem witness_launch : launched.Launch :=
  ⟨Pins.ofWord 0x200, .init, [.edge (Pins.ofWord 0x141), .edge nopPins, .observe], rfl, by decide, by decide, by decide⟩

theorem witness_safe : launched.Safe := by
  show movesSafe _ _ = true
  decide

/-- A state that has seen a value in the current interval, and whose next move completes. -/
def observed : State := { written with seen := [(0, 0xFFFF)], pending := [.observe] }

theorem witness_seen : observed.SeenConsistent ∧ ∃ t, step observed = .next t := by
  refine ⟨⟨?_, ?_, ?_⟩, _, rfl⟩ <;> simp [observed, written, State.reset]
  rintro k v w - rfl - rfl
  rfl

theorem witness_next_state : ∃ t, step launched = .next t := ⟨_, rfl⟩

/-- Each cause of a change of `Unwritten`: a seed load from it, and power returning to it. -/
theorem witness_written : launched.crc = .unwritten ∧
    (∃ t, step { written with pending := [.powerOn] } = .next t ∧ t.crc = .unwritten) := ⟨rfl, _, rfl, rfl⟩

/-- Two states that agree on `crc` and on the host's moves, and on nothing else. -/
theorem witness_depends : launched.crc = State.crc { launched with edge := 7, seen := [(3, 0x0000)] } ∧
    launched.pending = State.pending { launched with edge := 7, seen := [(3, 0x0000)] } := ⟨rfl, rfl⟩

/-- Two different blocks of a system of two, both of which can move. -/
theorem witness_system : (0 : Fin 2) ≠ 1 ∧ (∃ sys', (System.reset 2).stepBlock 0 = .next sys') ∧
    (∃ sys' sys'', (System.reset 2).stepBlock 0 = .next sys' ∧ sys'.stepBlock 1 = .next sys'') :=
  ⟨by decide, ⟨_, rfl⟩, _, _, rfl, rfl⟩

theorem witness_pseudo : ([0x41] : List Byte) ≠ [] := by decide

end Sys2Proof.Tests
end

section
/-! Systems of several instances (R52): the rules of `System.stepBlock`, and that the instances share nothing. -/

namespace Sys2Proof.Machine

variable {nInst : Nat} {sys sys' sys'' : System nInst} {j k : Fin nInst}

/-- The converse of `stepBlock_next`. -/
theorem stepBlock_of_step_next {t : State} (h : step sys.blocks[k] = .next t) :
    sys.stepBlock k = .next { blocks := sys.blocks.set k t } := by
  simp only [System.stepBlock, h]

/-- A move at a block is that block's own step. -/
theorem step_of_stepBlock_next (h : sys.stepBlock j = .next sys') :
    step sys.blocks[j] = .next sys'.blocks[j] := by
  obtain ⟨t, ht, rfl⟩ := stepBlock_next h
  simpa using ht

/-- The frame of a move at a block: every other block. -/
theorem stepBlock_next_other (hjk : j ≠ k) (h : sys.stepBlock j = .next sys') :
    sys'.blocks[k] = sys.blocks[k] := by
  obtain ⟨t, -, rfl⟩ := stepBlock_next h
  exact Vector.getElem_set_ne j.isLt k.isLt (Fin.val_ne_of_ne hjk)

/-- Each of the two moves finds its block as it was at the start, so both can be made in the other order, and the two replacements
of blocks commute. -/
theorem stepBlock_comm (hjk : j ≠ k) (hj : sys.stepBlock j = .next sys') (hk : sys'.stepBlock k = .next sys'') :
    ∃ mid, sys.stepBlock k = .next mid ∧ mid.stepBlock j = .next sys'' := by
  have hkept : sys'.blocks[k] = sys.blocks[k] := stepBlock_next_other hjk hj
  obtain ⟨t, ht, rfl⟩ := stepBlock_next hj
  obtain ⟨u, hu, rfl⟩ := stepBlock_next hk
  have hkFirst : sys.stepBlock k = .next { blocks := sys.blocks.set k u } :=
    stepBlock_of_step_next (hkept ▸ hu)
  have hjThen := stepBlock_of_step_next ((congrArg step (stepBlock_next_other hjk.symm hkFirst)).trans ht)
  refine ⟨_, hkFirst, hjThen.trans ?_⟩
  rw [Vector.set_comm _ _ (Fin.val_ne_of_ne hjk)]

end Sys2Proof.Machine
end

section
open Sys2Proof.Machine

/-- Settles O52: a move at one block is that block's step, its frame is every other block, and two such moves commute. -/
theorem instancesShareNothing : Obligations.InstancesShareNothing := by
  intro nInst sys j k hjk
  exact ⟨fun _ h => ⟨step_of_stepBlock_next h, stepBlock_next_other hjk h⟩, fun _ _ => stepBlock_comm hjk⟩

end

section
/-! The opcode table against the decoder (R62): which rows apply to a word, and where the operand stands in it. -/

namespace Sys2Proof

/-- The mask of RESET's row keeps `R` alone. -/
theorem commandWord_and_rstMask (r i v : Bool) (d : Byte) :
    commandWord r i v d &&& 0x400 = commandWord r false false 0 := by
  ext k hk
  interval_cases k <;> simp [commandWord]

/-- The mask of the other rows keeps the control bits and drops the datum. -/
theorem commandWord_and_controlMask (r i v : Bool) (d : Byte) :
    commandWord r i v d &&& 0x700 = commandWord r i v 0 := by
  ext k hk
  interval_cases k <;> simp [commandWord]

/-- Whether a row of the table applies is decided without the datum. -/
theorem applies_commandWord {row : OpcodeRow} (hrow : row ∈ opcodeTable) (r i v : Bool) (d : Byte) :
    row.applies (commandWord r i v d) = row.applies (commandWord r i v 0) := by
  simp only [opcodeTable, Instr.row, List.mem_cons, List.not_mem_nil, or_false] at hrow
  rcases hrow with rfl | rfl | rfl | rfl | rfl <;>
    simp only [OpcodeRow.applies, commandWord_and_rstMask, commandWord_and_controlMask]

/-- The row of the command a word decodes to is found without the datum: a row has no operand. -/
theorem row_decode_commandWord (r i v : Bool) (d : Byte) :
    (decode (commandWord r i v d)).row = (decode (commandWord r i v 0)).row := by
  simp only [decode_commandWord]
  split_ifs <;> rfl

/-- A row of the table against each setting of the control bits. -/
theorem applies_iff_of_controls : ∀ row ∈ opcodeTable, ∀ r i v : Bool,
    row.applies (commandWord r i v 0) = true ↔ row = (decode (commandWord r i v 0)).row := by
  decide

/-- A row of the table applies to exactly the words that decode to a command of that row. -/
theorem applies_iff {row : OpcodeRow} (hrow : row ∈ opcodeTable) (cw : CommandWord) :
    row.applies cw = true ↔ row = (decode cw).row := by
  rw [← commandWord_fields cw, applies_commandWord hrow, row_decode_commandWord]
  exact applies_iff_of_controls row hrow _ _ _

/-- The row of every command stands in the table once. -/
theorem opcodeTable_filter_eq_row (i : Instr) : opcodeTable.filter (fun row => row = i.row) = [i.row] := by
  cases i <;> rfl

/-- The rows that apply to a word: the one of its command. -/
theorem opcodeTable_filter_applies (cw : CommandWord) :
    opcodeTable.filter (fun row => row.applies cw) = [(decode cw).row] :=
  calc opcodeTable.filter (fun row => row.applies cw)
    _ = opcodeTable.filter (fun row => row = (decode cw).row) :=
      List.filter_congr fun _ hrow => Bool.eq_iff_iff.2 ((applies_iff hrow cw).trans decide_eq_true_iff.symm)
    _ = [(decode cw).row] := opcodeTable_filter_eq_row (decode cw)

/-- The operand of a decoded command is the word's datum (R63). -/
theorem operand_eq_dataField {cw : CommandWord} {b : Byte} (h : decode cw = .update b ∨ decode cw = .initUpdate b) :
    b = dataField cw := by
  unfold decode at h
  rcases h with h | h
  · split_ifs at h
    exact (Instr.update.inj h).symm
  · split_ifs at h
    exact (Instr.initUpdate.inj h).symm

end Sys2Proof
end

section
open Sys2Proof

/-- Settles O6: a row applies to a word exactly where it is the row of the word's command, and every command's row stands in the
table once. -/
theorem exactlyOneRowApplies : Obligations.ExactlyOneRowApplies :=
  ⟨rfl, fun cw => ⟨opcodeTable_filter_applies cw, fun _ h => operand_eq_dataField h⟩⟩

end

section
/-! Sampled pins: the deciding bits (R70), and that nothing else on the pins matters (R64). -/

namespace Sys2Proof

variable {p q : Pins}

/-! ## The levels of the command word -/

@[simp] theorem Pins.level_ten (p : Pins) : p.level 10 = p.rst := rfl
@[simp] theorem Pins.level_nine (p : Pins) : p.level 9 = p.init := rfl
@[simp] theorem Pins.level_eight (p : Pins) : p.level 8 = p.dinValid := rfl
theorem Pins.level_of_lt (p : Pins) {n : Nat} (h : n < 8) : p.level n = p.din[n] := by simp [Pins.level, h]

/-! ## The deciding bits -/

/-- Without `R = 0` the command is decided by `R` alone. -/
theorem Pins.deciding_of_rst_ne_low (h : p.rst ≠ .low) : p.deciding = [10] := by
  unfold Pins.deciding
  split
  next hlow _ => exact absurd hlow h
  next hlow _ => exact absurd hlow h
  next => rfl

/-- The deciding bits, as R70 lists them. -/
theorem Pins.mem_deciding {n : Nat} :
    n ∈ p.deciding ↔
      n = 10 ∨ (p.rst = .low ∧ (n = 9 ∨ n = 8)) ∨ (p.rst = .low ∧ p.dinValid = .high ∧ n < 8) := by
  unfold Pins.deciding
  split
  next hr hv => simp [hr, hv]; omega
  next hr hv => simp [hr, show p.dinValid ≠ .high from hv]
  next hr _ => simp [show p.rst ≠ .low from hr]

theorem Pins.undefinedDeciding_eq_nil_iff : p.undefinedDeciding = [] ↔ ∀ n ∈ p.deciding, p.level n ≠ .undef := by
  simp [Pins.undefinedDeciding]

/-- Pins are rejected exactly where a deciding bit is undefined. -/
theorem exists_decodePins_error_iff : (∃ bits, decodePins p = .error bits) ↔ ∃ n ∈ p.deciding, p.level n = .undef := by
  simp [decodePins_error_iff, Pins.undefinedDeciding_eq_nil_iff]

/-! ## Levels that agree on the deciding bits -/

/-- Pins that agree on the deciding bits of one have the same deciding bits: `R`, and with `R = 0` also `V`, is one of them. -/
theorem Pins.deciding_congr (h : ∀ n ∈ p.deciding, p.level n = q.level n) : p.deciding = q.deciding := by
  have hr : p.rst = q.rst := h 10 (by simp [Pins.mem_deciding])
  by_cases hlow : p.rst = .low
  · have hv : p.dinValid = q.dinValid := h 8 (by simp [Pins.mem_deciding, hlow])
    simp only [Pins.deciding, hr, hv]
  · rw [Pins.deciding_of_rst_ne_low hlow, Pins.deciding_of_rst_ne_low (hr ▸ hlow)]

theorem Pins.undefinedDeciding_congr (h : ∀ n ∈ p.deciding, p.level n = q.level n) :
    p.undefinedDeciding = q.undefinedDeciding := by
  simp only [Pins.undefinedDeciding, ← Pins.deciding_congr h]
  exact List.filter_congr fun n hn => by rw [h n hn]

/-- The command of the word on the pins. -/
theorem Pins.decode_word (p : Pins) :
    decode p.word =
      if p.rst = .high then .reset
      else if p.init = .high then (if p.dinValid = .high then .initUpdate (dataField p.word) else .init)
      else (if p.dinValid = .high then .update (dataField p.word) else .nop) := by
  simp [Pins.word, decode_commandWord]

/-- Pins with one datum carry words with one datum. -/
theorem Pins.dataField_word_congr (h : ∀ k (hk : k < 8), p.din[k] = q.din[k]) : dataField p.word = dataField q.word := by
  simp [Pins.word, h]

/-- Pins that agree on the deciding bits, all defined, carry words of one command. -/
theorem Pins.decode_word_congr (h : ∀ n ∈ p.deciding, p.level n = q.level n) (hr : p.rst ≠ .undef) :
    decode p.word = decode q.word := by
  have hrst : p.rst = q.rst := h 10 (by simp [Pins.mem_deciding])
  simp only [Pins.decode_word, ← hrst]
  cases hp : p.rst with
  | undef => exact absurd hp hr
  | high => rfl
  | low =>
    have hinit : p.init = q.init := h 9 (by simp [Pins.mem_deciding, hp])
    have hvalid : p.dinValid = q.dinValid := h 8 (by simp [Pins.mem_deciding, hp])
    rw [← hinit, ← hvalid]
    by_cases hv : p.dinValid = .high
    · have hdata : dataField p.word = dataField q.word := Pins.dataField_word_congr fun k hk => by
        simpa [Pins.level_of_lt, hk] using h k (by simp [Pins.mem_deciding, hp, hv, hk])
      rw [hdata]
    · simp [hv]

/-- What pins decode to depends on the deciding bits alone (R64). -/
theorem decodePins_congr (h : ∀ n ∈ p.deciding, p.level n = q.level n) : decodePins p = decodePins q := by
  have hu := Pins.undefinedDeciding_congr h
  cases hq : decodePins q with
  | error bits =>
    rw [decodePins_error_iff] at hq ⊢
    rwa [hu]
  | ok i =>
    rw [decodePins_ok_iff] at hq ⊢
    obtain ⟨hnil, hi⟩ := hq
    have hr : p.rst ≠ .undef :=
      Pins.undefinedDeciding_eq_nil_iff.1 (hu.trans hnil) 10 (by simp [Pins.mem_deciding])
    exact ⟨hu.trans hnil, (Pins.decode_word_congr h hr).trans hi⟩

/-- Pins driven with a command word decode to the word's command. -/
theorem decodePins_ofWord (cw : CommandWord) : decodePins (Pins.ofWord cw) = .ok (decode cw) :=
  (decodePins_ok_iff _ _).2 ⟨Pins.undefinedDeciding_ofWord cw, by rw [Pins.word_ofWord]⟩

/-- Where the undefined level stands on rejected pins (R70): on `R`, on `I` or `V` with `R = 0`, or on the datum of an update. -/
theorem Pins.exists_undefined_deciding_iff :
    (∃ n ∈ p.deciding, p.level n = .undef) ↔
      p.rst = .undef ∨ (p.rst = .low ∧ (p.init = .undef ∨ p.dinValid = .undef)) ∨
      (p.rst = .low ∧ p.dinValid = .high ∧ ∃ k : Fin 8, p.din[k] = .undef) := by
  constructor
  · rintro ⟨n, hn, hu⟩
    rcases Pins.mem_deciding.1 hn with rfl | ⟨hr, rfl | rfl⟩ | ⟨hr, hv, hk⟩
    · exact .inl hu
    · exact .inr (.inl ⟨hr, .inl hu⟩)
    · exact .inr (.inl ⟨hr, .inr hu⟩)
    · exact .inr (.inr ⟨hr, hv, ⟨n, hk⟩, by simpa [Pins.level_of_lt, hk] using hu⟩)
  · rintro (hu | ⟨hr, hu | hu⟩ | ⟨hr, hv, k, hu⟩)
    · exact ⟨10, by simp [Pins.mem_deciding], hu⟩
    · exact ⟨9, by simp [Pins.mem_deciding, hr], hu⟩
    · exact ⟨8, by simp [Pins.mem_deciding, hr], hu⟩
    · exact ⟨k, by simp [Pins.mem_deciding, hr, hv], by simpa [Pins.level_of_lt] using hu⟩

end Sys2Proof

namespace Sys2Proof.Machine

variable {p q : Pins}

/-- `step_edge_ok` for a host whose next move is the edge, whatever `s` had pending. -/
theorem step_presented_ok {i : Instr} (s : State) (rest : List HostMove) (hp : decodePins p = .ok i) :
    step { s with pending := .edge p :: rest } = exec i (s.clock rest) :=
  step_edge_ok rfl hp

/-- `step_edge_error` for a host whose next move is the edge, whatever `s` had pending. -/
theorem step_presented_error {bits : List Nat} (s : State) (rest : List HostMove) (hp : decodePins p = .error bits) :
    step { s with pending := .edge p :: rest } = .refused (.undefinedInput s.edge bits) :=
  step_edge_error rfl hp

/-- An edge's step reads the pins through their decoding only. -/
theorem step_presented_congr (h : decodePins p = decodePins q) (s : State) (rest : List HostMove) :
    step { s with pending := .edge p :: rest } = step { s with pending := .edge q :: rest } := by
  cases hq : decodePins q with
  | ok i => rw [step_presented_ok s rest (h.trans hq), step_presented_ok s rest hq]
  | error bits => rw [step_presented_error s rest (h.trans hq), step_presented_error s rest hq]

end Sys2Proof.Machine
end

section
open Sys2Proof Sys2Proof.Machine

/-- Settles O10: what differs between the two sets of pins is no deciding bit. -/
theorem ignoredLevelsHaveNoEffect : Obligations.IgnoredLevelsHaveNoEffect := by
  intro s rest
  refine ⟨fun i j v w d e => step_presented_congr (decodePins_congr ?_) s rest,
    fun i d e => step_presented_congr (decodePins_congr ?_) s rest⟩
  · simp [Pins.mem_deciding]
  · simp [Pins.mem_deciding]

/-- Settles O11: pins are rejected exactly where a deciding bit is undefined, and a run stops at the refusal. -/
theorem undefinedDecidingLevelIsRefused : Obligations.UndefinedDecidingLevelIsRefused :=
  ⟨fun _ => exists_decodePins_error_iff.trans Pins.exists_undefined_deciding_iff,
    fun s _ rest _ n h => run_refused (step_presented_error s rest h) n, decodePins_ofWord⟩

end

section
/-! The wires of the update as numbers (R80): the value of each from the values of the wires that drive it. A shift left drops what
leaves the 16 bits; the other operations cannot leave them. -/

namespace Sys2Proof.Machine

variable (c : Word) (b : Byte)

@[simp] theorem toNat_zext16 : (zext16 b).toNat = b.toNat := BitVec.toNat_setWidth_of_le (by decide)

theorem SubSteps.toNat_temp : (subSteps c b).temp.toNat = (c.toNat >>> 8) ^^^ b.toNat := by
  simp [subSteps]

theorem SubSteps.toNat_acc2 : (subSteps c b).acc2.toNat = (c.toNat <<< 8) % 2 ^ 16 :=
  BitVec.toNat_shiftLeft

theorem SubSteps.toNat_quick3 :
    (subSteps c b).quick3.toNat = (subSteps c b).temp.toNat ^^^ ((subSteps c b).temp.toNat >>> 4) := by
  simp [subSteps]

theorem SubSteps.toNat_acc4 : (subSteps c b).acc4.toNat = (subSteps c b).acc2.toNat ^^^ (subSteps c b).quick3.toNat :=
  BitVec.toNat_xor ..

theorem SubSteps.toNat_quick5 : (subSteps c b).quick5.toNat = ((subSteps c b).quick3.toNat <<< 5) % 2 ^ 16 :=
  BitVec.toNat_shiftLeft

theorem SubSteps.toNat_acc5 : (subSteps c b).acc5.toNat = (subSteps c b).acc4.toNat ^^^ (subSteps c b).quick5.toNat :=
  BitVec.toNat_xor ..

theorem SubSteps.toNat_quick6 : (subSteps c b).quick6.toNat = ((subSteps c b).quick5.toNat <<< 7) % 2 ^ 16 :=
  BitVec.toNat_shiftLeft

theorem toNat_crcStep : (crcStep c b).toNat = (subSteps c b).acc5.toNat ^^^ (subSteps c b).quick6.toNat :=
  BitVec.toNat_xor ..

end Sys2Proof.Machine
end

section
open Sys2Proof.Machine

/-- Settles O22: wire by wire. The truncations of steps 1 and 3 drop nothing, because `temp` and `quick3` are 16 bits wide. -/
theorem crcStepIsTheSixSubSteps : Obligations.CrcStepIsTheSixSubSteps := by
  intro c b
  have htemp := (subSteps c b).temp.toNat_mod_cancel
  have hquick := (subSteps c b).quick3.toNat_mod_cancel
  simp only [← SubSteps.toNat_temp, htemp, ← SubSteps.toNat_acc2 c b, ← SubSteps.toNat_quick3, hquick, ← SubSteps.toNat_acc4,
    ← SubSteps.toNat_quick5, ← SubSteps.toNat_acc5, ← SubSteps.toNat_quick6, ← toNat_crcStep]

end

section
/-! Which words are a command's (R62, R101 to R105): the words of its row that carry its operand. -/

namespace Sys2Proof

theorem Instr.row_mem_opcodeTable (i : Instr) : i.row ∈ opcodeTable := by
  cases i <;> simp [opcodeTable, Instr.row]

/-- A command's pattern and mask pick the words that decode to a command of its row. -/
theorem and_rowMask_eq_rowPattern_iff (i : Instr) (cw : CommandWord) :
    cw &&& i.row.mask = i.row.pattern ↔ i.row = (decode cw).row :=
  beq_iff_eq.symm.trans (applies_iff i.row_mem_opcodeTable cw)

/-- Two commands of one row differ in their operand at most. -/
theorem Instr.eq_or_operands_of_row_eq {i j : Instr} (h : i.row = j.row) :
    i = j ∨ (∃ b c, i = .update b ∧ j = .update c) ∨ (∃ b c, i = .initUpdate b ∧ j = .initUpdate c) := by
  cases i <;> cases j <;> simp_all [Instr.row]

/-- A word decodes to a command exactly where it is of the command's row and its datum is the command's operand, if it has one. -/
theorem decode_eq_iff (cw : CommandWord) (i : Instr) :
    decode cw = i ↔
      cw &&& i.row.mask = i.row.pattern ∧ ∀ b, i = .update b ∨ i = .initUpdate b → cw.extractLsb' 0 8 = b := by
  rw [and_rowMask_eq_rowPattern_iff]
  constructor
  · rintro rfl
    exact ⟨rfl, fun b hb => (operand_eq_dataField hb).symm⟩
  · rintro ⟨hrow, hop⟩
    rcases Instr.eq_or_operands_of_row_eq hrow with h | ⟨b, c, rfl, hc⟩ | ⟨b, c, rfl, hc⟩
    · exact h.symm
    · rw [hc, operand_eq_dataField (.inl hc), dataField, hop b (.inl rfl)]
    · rw [hc, operand_eq_dataField (.inr hc), dataField, hop b (.inr rfl)]

end Sys2Proof
end

section
/-! What each command leaves in the accumulator (R101 to R105). -/

namespace Sys2Proof.Machine

@[simp] theorem State.setCrc_self (s : State) : s.setCrc s.crc = s := rfl

@[simp] theorem Acc.after_nop (a : Acc) : a.after .nop = a := rfl

/-- NOPs hold the accumulator, however many they are. -/
@[simp] theorem Acc.foldl_after_replicate_nop (n : Nat) (a : Acc) : (List.replicate n Instr.nop).foldl Acc.after a = a := by
  induction n with
  | zero => rfl
  | succ n ih => simpa [List.replicate_succ] using ih

theorem execAll_singleton (i : Instr) (s : State) : execAll [i] s = exec i s :=
  (execAll_eq [i] s).trans (exec_eq i s).symm

/-- A seed load does not read the accumulator. -/
theorem Acc.after_eq_of_seedLoad {i : Instr} (h : seedLoad i = true) (a a' : Acc) : a.after i = a'.after i := by
  cases i with
  | reset => rfl
  | initUpdate b => rfl
  | init => rfl
  | update b => simp [seedLoad] at h
  | nop => simp [seedLoad] at h

/-- A seed load discards what the accumulator held. -/
theorem exec_setCrc_of_seedLoad {i : Instr} (h : seedLoad i = true) (s : State) (a : Acc) :
    exec i (s.setCrc a) = exec i s := by
  rw [exec_eq, exec_eq, Acc.after_eq_of_seedLoad h (s.setCrc a).crc s.crc]
  rfl

end Sys2Proof.Machine
end

section
open Sys2Proof Sys2Proof.Machine

/-- Settles O1: a sequence acts through the fold of `Acc.after`, in which a NOP is the identity. -/
theorem nopHoldsTheState : Obligations.NopHoldsTheState := by
  refine ⟨fun cw => ?_, exec_eq .nop, fun n s => ?_, fun before after s => ?_, rfl⟩
  · simpa [Instr.row] using decode_eq_iff cw .nop
  · simp [execAll_eq]
  · simp [execAll_eq]

end

section
/-! The update by the accumulator's own high byte (R103): `temp` is 0, and the low byte moves up. -/

namespace Sys2Proof.Machine

theorem zext16_hiByte (v : Word) : zext16 (hiByte v) = v >>> 8 := by
  apply BitVec.eq_of_getLsbD_eq
  intro k hk
  rw [getLsbD_zext16, getLsbD_hiByte, BitVec.getLsbD_ushiftRight]
  by_cases h : k < 8
  · simp [h]
  · simp [h, BitVec.getLsbD_of_ge v (8 + k) (by omega)]

theorem shiftLeft_eight_eq_joinBytes (v : Word) : v <<< 8 = joinBytes (loByte v) 0x00 := by
  apply BitVec.eq_of_getLsbD_eq
  intro k hk
  rw [getLsbD_joinBytes, getLsbD_loByte, BitVec.getLsbD_shiftLeft]
  by_cases h : k < 8
  · simp [h]
  · simp [h, hk, show k - 8 < 8 by omega]

/-- The byte that cancels the high byte leaves the low byte moved up. -/
theorem crcStep_hiByte (v : Word) : crcStep v (hiByte v) = joinBytes (loByte v) 0x00 := by
  rw [crcStep_eq, zext16_hiByte, ← shiftLeft_eight_eq_joinBytes]
  simp

end Sys2Proof.Machine
end

section
open Sys2Proof Sys2Proof.Machine

/-- Settles O3: an update is `Acc.consume` on the accumulator; its corner cases are values of `crcStep`. -/
theorem updateConsumesTheByte : Obligations.UpdateConsumesTheByte := by
  have hval (s : State) (v : Word) (b : Byte) :
      exec (.update b) { s with crc := .val v } = .next { s with crc := .val (crcStep v b) } := exec_eq _ _
  have hzero : crcStep 0x0000 0x00 = 0x0000 := by decide
  have hexample : crcStep 0xFFFF 0x00 = 0xE1F0 := by decide
  refine ⟨fun cw b => ?_, hval, fun s b => exec_eq _ _, fun s v => ?_, fun s => ?_, ⟨by decide, fun s => ?_⟩, fun _ => rfl⟩
  · simpa [Instr.row] using decode_eq_iff cw (.update b)
  · rw [hval, crcStep_hiByte]
  · rw [hval, hzero]
  · rw [hval, hexample]

end

section
/-! What an observation of `crc_out` reads (R107). -/

namespace Sys2Proof.Machine

variable {s : State}

theorem State.crcOut_eq_ok_iff {v : Word} : s.crcOut = .ok v ↔ s.crc = .val v := by
  cases h : s.crc with
  | unwritten => simp [State.crcOut_unwritten h]
  | val w => simp [State.crcOut_val h]

theorem State.crcOut_eq_error_iff : s.crcOut = .error (.unwrittenRead s.edge) ↔ s.crc = .unwritten := by
  cases h : s.crc with
  | unwritten => simp [State.crcOut_unwritten h]
  | val w => simp [State.crcOut_val h]

/-- `step_observe` for a host whose next move is the observation, whatever `s` had pending. -/
theorem step_presented_observe (s : State) (rest : List HostMove) :
    step { s with pending := .observe :: rest } = observe rest { s with pending := .observe :: rest } :=
  step_observe rfl

end Sys2Proof.Machine
end

section
open Sys2Proof.Machine

/-- Settles O14: an observation reads `crc` and writes the host's record alone; its fault ends the run. -/
theorem observationReadsTheAccumulator : Obligations.ObservationReadsTheAccumulator :=
  ⟨fun _ _ => State.crcOut_eq_ok_iff, fun _ => State.crcOut_eq_error_iff,
    fun s rest _ h => ⟨_, (step_presented_observe s rest).trans (observe_val rest h), rfl, rfl⟩,
    fun s rest n h => run_fault ((step_presented_observe s rest).trans (observe_unwritten rest h)) n⟩

end

section
open Sys2Proof Sys2Proof.Machine

/-- Settles O2: INIT is a seed load, so neither the old `crc` nor a second INIT matters. -/
theorem initLoadsTheSeed : Obligations.InitLoadsTheSeed := by
  refine ⟨fun cw => ?_, exec_eq .init, fun s => ?_, exec_setCrc_of_seedLoad rfl, rfl⟩
  · simpa [Instr.row] using decode_eq_iff cw .init
  · calc execAll [.init, .init] s
      _ = execAll [.init] (s.setCrc (s.crc.after .init)) := execAll_cons ..
      _ = exec .init (s.setCrc (s.crc.after .init)) := execAll_singleton ..
      _ = exec .init s := exec_setCrc_of_seedLoad rfl s _

/-- Settles O4: INIT_UPDATE is a seed load that leaves the update of the seed. -/
theorem initUpdateStartsFromTheSeed : Obligations.InitUpdateStartsFromTheSeed := by
  refine ⟨fun cw b => ?_, fun s b => exec_eq (.initUpdate b) s, fun s b a => exec_setCrc_of_seedLoad rfl s a,
    by decide, fun _ => rfl⟩
  simpa [Instr.row] using decode_eq_iff cw (.initUpdate b)

/-- Settles O5: RESET leaves the seed, and the example's word decodes to it. -/
theorem resetLoadsTheSeed : Obligations.ResetLoadsTheSeed := by
  have hexample : decodePins (Pins.ofWord 0x5FF) = .ok .reset := (decodePins_ofWord _).trans (congrArg _ (by decide))
  refine ⟨fun cw => ?_, exec_eq .reset, fun s => (exec_eq .reset s).trans (exec_eq .init s).symm, fun s rest => ?_, rfl⟩
  · simpa [Instr.row] using decode_eq_iff cw .reset
  · exact (step_presented_ok { s with crc := .val 0xB915 } rest hexample).trans (exec_eq ..)

end

section
/-! The reference procedure (R130 to R134): its loop is the fold over a prefix, and its check decides between its two answers. -/

namespace Sys2Proof.Machine

/-- The loop of R132 needs no length check: where the message ends early, so does the prefix. -/
theorem updateLoop_eq_crcFold_take (n : Nat) (m : List Byte) (acc : Word) :
    updateLoop n m acc = crcFold acc (m.take n) := by
  induction n, m, acc using updateLoop.induct with
  | case1 m acc => simp [updateLoop]
  | case2 acc n => simp [updateLoop]
  | case3 acc n b m ih => simpa [updateLoop] using ih

variable {m : List Byte} {length : BitVec 8}

theorem computeCrc_of_length_lt (h : m.length < length.toNat) :
    computeCrc m length = .error (.invalidArgument length.toNat m.length) :=
  if_pos h

theorem computeCrc_of_le_length (h : length.toNat ≤ m.length) :
    computeCrc m length = .ok (crcFold seed (m.take length.toNat)) := by
  rw [← updateLoop_eq_crcFold_take]
  exact if_neg h.not_gt

end Sys2Proof.Machine
end

section
open Sys2Proof.Machine

/-- Settles O33: the check passes, and the loop from the seed is the fold over the prefix. -/
theorem computeCrcFoldsThePrefix : Obligations.ComputeCrcFoldsThePrefix :=
  fun _ _ h => computeCrc_of_le_length h

/-- Settles O32: each side of the check's boundary has its own answer. -/
theorem computeCrcChecksItsLength : Obligations.ComputeCrcChecksItsLength :=
  fun _ _ => ⟨computeCrc_of_length_lt, fun h => ⟨_, computeCrc_of_le_length h⟩⟩

/-- Settles O34: length 0 is within every message, and the fold over no bytes leaves the seed. -/
theorem emptyInputGivesTheSeed : Obligations.EmptyInputGivesTheSeed :=
  fun m => computeCrc_of_le_length (length := 0) (Nat.zero_le m.length)

end

section
/-! A run of edges, and the observation at its end (R182). -/

namespace Sys2Proof.Machine

/-- Edges that decode run to their end, one command each, and leave the moves after them pending. -/
theorem run_edges {edges : List Pins} {cmds : List Instr} (h : edges.map decodePins = cmds.map .ok) (s : State)
    (rest : List HostMove) :
    Host.Core.run core edges.length { s with pending := edges.map .edge ++ rest } =
      .next { s with crc := cmds.foldl Acc.after s.crc, pending := rest, edge := s.edge + edges.length } := by
  induction edges generalizing cmds s with
  | nil =>
    obtain rfl : cmds = [] := by simpa using h.symm
    rfl
  | cons p edges ih =>
    cases cmds with
    | nil => simp at h
    | cons i cmds =>
      obtain ⟨hp, hedges⟩ : decodePins p = .ok i ∧ edges.map decodePins = cmds.map .ok := by simpa using h
      have hstep := (step_presented_ok s (edges.map .edge ++ rest) hp).trans (exec_eq ..)
      refine (run_next hstep edges.length).trans ((ih hedges ((s.clock []).setCrc (s.crc.after i))).trans ?_)
      simp [State.clock, State.setCrc, Nat.add_assoc, Nat.add_comm 1]

variable {s t : State} {edges : List Pins}

/-- The observation of a run that ends in a written accumulator. -/
theorem observeRun_val {v : Word} (h : Host.Core.run core edges.length (s.drive edges) = .next t) (hv : t.crc = .val v) :
    observeRun s edges = .next v := by
  simp only [observeRun, h, State.crcOut_val hv]

/-- The observation of a run that ends in an unwritten accumulator. -/
theorem observeRun_unwritten (h : Host.Core.run core edges.length (s.drive edges) = .next t) (hu : t.crc = .unwritten) :
    observeRun s edges = .fault (.unwrittenRead t.edge) := by
  simp only [observeRun, h, State.crcOut_unwritten hu]

/-- A bad run has no observation: it answers its refusal. -/
theorem observeRun_refused {r : Refusal} (h : Host.Core.run core edges.length (s.drive edges) = .refused r) :
    observeRun s edges = .refused r := by
  simp only [observeRun, h]

/-- A run is refused at its first edge with an undefined deciding level; what was to follow that edge does not matter. -/
theorem run_edges_refused {good : List Pins} {cmds : List Instr} {p : Pins} {bits : List Nat}
    (hgood : good.map decodePins = cmds.map .ok) (hp : decodePins p = .error bits) (s : State) (later : List Pins) :
    Host.Core.run core (good ++ p :: later).length (s.drive (good ++ p :: later)) =
      .refused (.undefinedInput (s.edge + good.length) bits) := by
  have hrun := run_edges hgood s (.edge p :: (later.map .edge ++ s.pending))
  have hdrive : s.drive (good ++ p :: later) =
      { s with pending := good.map .edge ++ .edge p :: (later.map .edge ++ s.pending) } := by
    simp [State.drive]
  rw [hdrive, List.length_append, List.length_cons, run_add _ hrun]
  exact run_refused (step_edge_error rfl hp) _

end Sys2Proof.Machine
end

section
open Sys2Proof Sys2Proof.Machine

/-- Settles O21: edges that decode run to the accumulator of their command sequence, and an undefined deciding level ends the run
where it stands. -/
theorem runEndsInItsObservation : Obligations.RunEndsInItsObservation := by
  refine ⟨fun s edges cmds h => ?_, fun s good later p cmds bits hgood hp =>
    observeRun_refused (run_edges_refused hgood hp s later)⟩
  have hrun : Host.Core.run core edges.length (s.drive edges) = _ := run_edges h s s.pending
  exact ⟨_, execAll_eq cmds s, fun _ hv => observeRun_val hrun hv, fun hu => observeRun_unwritten hrun hu⟩

end

section
/-! Safe states (R151, R182) and the launch premise (R174): what a move asks of the accumulator, that every step keeps a state
safe, and that a launched state is safe. -/

namespace Sys2Proof.Machine

/-- A command leaves the accumulator written where it was, or where it is a seed load. -/
theorem Acc.written_after (a : Acc) (i : Instr) : (a.after i).written = (a.written || seedLoad i) := by
  cases i with
  | update b => cases a <;> rfl
  | nop => simp [seedLoad]
  | reset | initUpdate | init => simp [Acc.after, Acc.written, seedLoad]

theorem Acc.exists_val_of_written {a : Acc} (h : a.written = true) : ∃ v, a = .val v := by
  cases a with
  | unwritten => cases h
  | val v => exact ⟨v, rfl⟩

/-- A seed load leaves a value, whatever the accumulator held. -/
theorem Acc.exists_after_eq_val_of_seedLoad {i : Instr} (h : seedLoad i = true) (a : Acc) : ∃ v, a.after i = .val v :=
  Acc.exists_val_of_written (by simp [Acc.written_after, h])

variable {s : State}

/-! ## The moves of a safe state -/

theorem movesSafe_edge_ok {p : Pins} {i : Instr} (hp : decodePins p = .ok i) (w : Bool) (rest : List HostMove) :
    movesSafe w (.edge p :: rest) = movesSafe (w || seedLoad i) rest := by
  simp only [movesSafe, hp]

/-- The edge of a safe sequence decodes. -/
theorem exists_decodePins_ok_of_movesSafe {w : Bool} {p : Pins} {rest : List HostMove}
    (h : movesSafe w (.edge p :: rest) = true) : ∃ i, decodePins p = .ok i := by
  cases hp : decodePins p with
  | ok i => exact ⟨i, rfl⟩
  | error bits => simp [movesSafe, hp] at h

/-- The observation of a safe sequence finds the accumulator written. -/
theorem movesSafe_observe_iff {w : Bool} {rest : List HostMove} :
    movesSafe w (.observe :: rest) = true ↔ w = true ∧ movesSafe w rest = true :=
  Bool.and_eq_true_iff

/-! ## The invariant -/

/-- A safe state steps to a safe state. -/
theorem State.Safe.exists_step_next (h : s.Safe) : ∃ t, step s = .next t ∧ t.Safe := by
  have hmoves : movesSafe s.crc.written s.pending = true := h
  match hs : s.pending with
  | [] => exact ⟨s, step_idle hs, h⟩
  | .edge p :: rest =>
    rw [hs] at hmoves
    obtain ⟨i, hp⟩ := exists_decodePins_ok_of_movesSafe hmoves
    rw [movesSafe_edge_ok hp, ← Acc.written_after] at hmoves
    exact ⟨_, (step_edge_ok hs hp).trans (exec_eq ..), hmoves⟩
  | .observe :: rest =>
    rw [hs] at hmoves
    obtain ⟨hwritten, hrest⟩ := movesSafe_observe_iff.1 hmoves
    obtain ⟨v, hv⟩ := Acc.exists_val_of_written hwritten
    exact ⟨_, (step_observe hs).trans (observe_val rest hv), hrest⟩
  | .powerOn :: rest =>
    rw [hs] at hmoves
    exact ⟨_, step_powerOn hs, hmoves⟩

/-- No number of steps from a safe state stops. -/
theorem State.Safe.exists_run_next (h : s.Safe) (n : Nat) : ∃ t, Host.Core.run core n s = .next t := by
  induction n generalizing s with
  | zero => exact ⟨s, run_zero s⟩
  | succ n ih =>
    obtain ⟨t, hstep, ht⟩ := h.exists_step_next
    rw [run_next hstep]
    exact ih ht

/-! ## The launch premise -/

/-- An edge of the launch premise decodes. -/
theorem exists_decodePins_ok_of_launchMove {p : Pins} (h : launchMove (.edge p) = true) : ∃ i, decodePins p = .ok i :=
  ⟨_, (decodePins_ok_iff p _).2 ⟨by simpa [launchMove] using h, rfl⟩⟩

/-- Once the accumulator is written, the moves of the launch premise record no fault and no refusal. -/
theorem movesSafe_of_launchMoves {moves : List HostMove} (h : ∀ mv ∈ moves, launchMove mv = true) :
    movesSafe true moves = true := by
  induction moves with
  | nil => rfl
  | cons mv rest ih =>
    obtain ⟨hmv, hrest⟩ := List.forall_mem_cons.1 h
    cases mv with
    | edge p =>
      obtain ⟨i, hp⟩ := exists_decodePins_ok_of_launchMove hmv
      rw [movesSafe_edge_ok hp, Bool.true_or]
      exact ih hrest
    | observe => exact movesSafe_observe_iff.2 ⟨rfl, ih hrest⟩
    | powerOn => cases hmv

/-- The launch premise makes a state safe, whatever `crc` holds: its seed load comes before its first observation. -/
theorem State.Launch.safe (h : s.Launch) : s.Safe := by
  obtain ⟨p, i, rest, hs, hp, hi, hrest⟩ := h
  show movesSafe s.crc.written s.pending = true
  rw [hs, movesSafe_edge_ok hp, hi, Bool.or_true]
  exact movesSafe_of_launchMoves hrest

/-- The first step of a launched state makes `crc` defined. -/
theorem State.Launch.exists_step_next_val (h : s.Launch) : ∃ t v, step s = .next t ∧ t.crc = .val v := by
  obtain ⟨p, i, rest, hs, hp, hi, -⟩ := h
  obtain ⟨v, hv⟩ := Acc.exists_after_eq_val_of_seedLoad hi s.crc
  exact ⟨_, v, (step_edge_ok hs hp).trans (exec_eq ..), hv⟩

end Sys2Proof.Machine
end

section
open Sys2Proof.Machine

/-- Settles O46: a launched state is safe, and every step keeps a state safe. -/
theorem launchPremiseExcludesStops : Obligations.LaunchPremiseExcludesStops :=
  fun _ h => ⟨h.exists_step_next_val, h.safe.exists_run_next⟩

/-- Settles O18: RESET leaves the accumulator of the reset state, so `crc_out` shows the same. -/
theorem resetLeavesTheSeed : Obligations.ResetLeavesTheSeed :=
  ⟨rfl, State.crcOut_val rfl, fun s => ⟨_, exec_eq .reset s, rfl, State.crcOut_val rfl⟩⟩

end

section
/-! Pins that present a command word: they agree with it on its deciding bits (R64, R70). Pins decode to a command exactly where they
present the word the encoder gives it. -/

namespace Sys2Proof

/-! ## The encoder's words -/

@[simp] theorem decode_encode (i : Instr) : decode (encode i) = i := by
  cases i <;> simp [encode, decode_commandWord]

/-- The opcode table's number of a command word is that word again: it has no bit above `CW[10]`. -/
@[simp] theorem commandWordOfTable_toNat (cw : CommandWord) : commandWordOfTable 16 cw.toNat = some cw := by
  have hlt : cw.toNat < 2 ^ 11 := cw.isLt
  have hmod : cw.toNat % 2 ^ 16 = cw.toNat := Nat.mod_eq_of_lt (by omega)
  rw [commandWordOfTable, hmod]
  simpa [commandNumeral, Config.commandWidth, Config.dataWidth] using hlt

theorem commandWord_getLsbD_datum (r i v : Bool) (d : Byte) {k : Nat} (hk : k < 8) :
    (commandWord r i v d).getLsbD k = d.getLsbD k := by
  have h := congrArg (·.getLsbD k) (dataField_commandWord r i v d)
  simpa [dataField, hk] using h

/-! ## Presenting a word -/

/-- Pins present a word when they agree with the levels driven for it on the bits that decide its command. -/
def Pins.Presents (p : Pins) (cw : CommandWord) : Prop :=
  ∀ n ∈ (Pins.ofWord cw).deciding, p.level n = (Pins.ofWord cw).level n

variable {p : Pins} {cw : CommandWord}

/-- Pins that present a word decode as it does. -/
theorem decodePins_of_presents (h : p.Presents cw) : decodePins p = .ok (decode cw) :=
  (decodePins_congr fun n hn => (h n hn).symm).symm.trans (decodePins_ofWord cw)

/-- What presenting a word asks of the pins, by the word's fields: `R`; `I` and `V` when `R = 0`; `D` when also `V = 1`. -/
theorem Pins.presents_commandWord_iff (r i v : Bool) (d : Byte) :
    p.Presents (commandWord r i v d) ↔
      p.rst = Level.ofBool r ∧ (r = false → p.init = Level.ofBool i ∧ p.dinValid = Level.ofBool v ∧
        (v = true → ∀ k : Fin 8, p.din[k] = Level.ofBool (d.getLsbD k))) := by
  have hdatum (k : Nat) (hk : k < 8) :
      (Pins.ofWord (commandWord r i v d)).level k = Level.ofBool (d.getLsbD k) := by
    rw [Pins.level_ofWord _ k (by omega), commandWord_getLsbD_datum r i v d hk]
  constructor
  · intro h
    refine ⟨by simpa using h 10 (by simp [Pins.mem_deciding]), ?_⟩
    rintro rfl
    refine ⟨by simpa using h 9 (by simp [Pins.mem_deciding]), by simpa using h 8 (by simp [Pins.mem_deciding]), ?_⟩
    rintro rfl k
    rw [← hdatum k k.isLt, ← h k (by simp [Pins.mem_deciding])]
    exact (p.level_of_lt k.isLt).symm
  · rintro ⟨hr, hcontrols⟩ n hn
    rcases Pins.mem_deciding.1 hn with rfl | ⟨hlow, hn⟩ | ⟨hlow, hv, hk⟩
    · simpa using hr
    · obtain ⟨hi, hv, -⟩ := hcontrols (by simpa using hlow)
      rcases hn with rfl | rfl
      · simpa using hi
      · simpa using hv
    · obtain ⟨-, -, hd⟩ := hcontrols (by simpa using hlow)
      rw [hdatum n hk, p.level_of_lt hk]
      exact hd (by simpa using hv) ⟨n, hk⟩

/-- A word and the encoder's word of its command differ in ignored bits at most, so the same pins present them. -/
theorem Pins.presents_encode_decode_iff : p.Presents (encode (decode cw)) ↔ p.Presents cw := by
  rw [← commandWord_fields cw, decode_commandWord]
  cases cw.getLsbD 10 <;> cases cw.getLsbD 9 <;> cases cw.getLsbD 8 <;>
    simp [encode, Pins.presents_commandWord_iff]

theorem Level.ofBool_eq_of_ne_undef {l : Level} (h : l ≠ .undef) : Level.ofBool (l = .high) = l := by
  cases l with
  | undef => exact absurd rfl h
  | low | high => rfl

/-- Pins with no undefined deciding bit present the word on them. -/
theorem Pins.presents_word (h : p.undefinedDeciding = []) : p.Presents p.word := by
  rw [Pins.undefinedDeciding_eq_nil_iff] at h
  have hr : p.rst ≠ .undef := h 10 (by simp [Pins.mem_deciding])
  refine (Pins.presents_commandWord_iff ..).2 ⟨(Level.ofBool_eq_of_ne_undef hr).symm, fun hhigh => ?_⟩
  have hlow : p.rst = .low := by
    cases hp : p.rst <;> simp_all
  refine ⟨(Level.ofBool_eq_of_ne_undef (h 9 (by simp [Pins.mem_deciding, hlow]))).symm,
    (Level.ofBool_eq_of_ne_undef (h 8 (by simp [Pins.mem_deciding, hlow]))).symm, fun hv k => ?_⟩
  have hk : p.din[k] ≠ .undef := by
    simpa [Pins.level_of_lt] using h k (by simp [Pins.mem_deciding, hlow, of_decide_eq_true hv])
  simpa using (Level.ofBool_eq_of_ne_undef hk).symm

/-- Pins decode to a command exactly where they present its word. -/
theorem decodePins_eq_ok_iff {i : Instr} : decodePins p = .ok i ↔ p.Presents (encode i) := by
  constructor
  · rw [decodePins_ok_iff]
    rintro ⟨hnil, rfl⟩
    exact Pins.presents_encode_decode_iff.2 (Pins.presents_word hnil)
  · intro h
    simpa using decodePins_of_presents h

end Sys2Proof
end

section
open Sys2Proof

/-- Settles O7: a table word is the command word it numbers, and pins that agree with a word on its deciding bits present it. -/
theorem decodeOfEncodeIsTheInstruction : Obligations.DecodeOfEncodeIsTheInstruction :=
  ⟨decode_encode, fun i => by simp [decodeTableWord], fun _ _ h => decodePins_eq_ok_iff.2 h⟩

/-- Settles O9: what it takes to present each command's word, by the word's fields. -/
theorem pinsDecodeByPriority : Obligations.PinsDecodeByPriority := by
  intro p
  simp [decodePins_eq_ok_iff, encode, Pins.presents_commandWord_iff, Level.ofBool]

end

section
/-! The consistency of what the host has seen (R29, R46): each kind of move keeps it. -/

namespace Sys2Proof.Machine

variable {s : State}

/-- At an edge the interval ends: every observation is dated before the next edge, so the new value of `crc` contradicts none. -/
theorem State.SeenConsistent.clock_setCrc (h : s.SeenConsistent) (rest : List HostMove) (a : Acc) :
    ((s.clock rest).setCrc a).SeenConsistent := by
  obtain ⟨hdate, -, hagree⟩ := h
  refine ⟨fun k v hkv => Nat.le_succ_of_le (hdate k v hkv), fun v hv => ?_, hagree⟩
  exact absurd (hdate _ v hv) (Nat.not_succ_le_self _)

/-- An observation shows what `crc` holds, as every other of the same interval did. -/
theorem State.SeenConsistent.observed {v : Word} (h : s.SeenConsistent) (hv : s.crc = .val v) (rest : List HostMove) :
    State.SeenConsistent { s with pending := rest, seen := s.seen ++ [(s.edge, v)] } := by
  obtain ⟨hdate, hcurrent, hagree⟩ := h
  have hnow (w : Word) (hw : (s.edge, w) ∈ s.seen) : w = v := by
    simpa [hv, eq_comm] using hcurrent w hw
  refine ⟨fun k w hkw => ?_, fun w hw => ?_, fun k w x hkw hkx => ?_⟩
  · simp only [List.mem_append, List.mem_singleton, Prod.mk.injEq] at hkw
    rcases hkw with hkw | ⟨rfl, -⟩
    · exact hdate k w hkw
    · exact le_rfl
  · simp only [List.mem_append, List.mem_singleton, Prod.mk.injEq, true_and] at hw
    rcases hw with hw | rfl
    · exact .inl (hnow w hw ▸ hv)
    · exact .inl hv
  · simp only [List.mem_append, List.mem_singleton, Prod.mk.injEq] at hkw hkx
    rcases hkw with hkw | ⟨rfl, rfl⟩ <;> rcases hkx with hkx | ⟨hk, rfl⟩
    · exact hagree k w x hkw hkx
    · exact hnow w (hk ▸ hkw)
    · exact (hnow x hkx).symm
    · rfl

/-- Power returning takes the value `crc` held and shows no other. -/
theorem State.SeenConsistent.powerUp (h : s.SeenConsistent) (rest : List HostMove) : (s.powerUp rest).SeenConsistent := by
  obtain ⟨hdate, -, hagree⟩ := h
  exact ⟨hdate, fun _ _ => .inr rfl, hagree⟩

end Sys2Proof.Machine
end

section
open Sys2Proof.Machine

/-- Settles O44: `Safe` is the invariant of the moves that are left. -/
theorem safeStatesStepToSafeStates : Obligations.SafeStatesStepToSafeStates :=
  fun _ h => h.exists_step_next

/-- Settles O48: move by move; without one the state stays. -/
theorem seenConsistencyIsKept : Obligations.SeenConsistencyIsKept := by
  intro s t h hstep
  rcases step_next_cases hstep with ⟨-, rfl⟩ | ⟨p, rest, i, -, -, rfl⟩ | ⟨rest, v, -, hv, rfl⟩ | ⟨rest, -, rfl⟩
  · exact h
  · exact h.clock_setCrc rest _
  · exact h.observed hv rest
  · exact h.powerUp rest

/-- Settles O47: no move is pending and nothing has been seen. -/
theorem resetMeetsTheInvariants : Obligations.ResetMeetsTheInvariants :=
  ⟨rfl, by simp [State.SeenConsistent, State.reset]⟩

end

section
/-! The outcomes of a step, exactly: where it faults and where it refuses (R151), and what leaves a state unsafe. -/

namespace Sys2Proof

/-- What rejected pins are rejected by (R70): the undefined ones of `R`, of `I` and `V` with `R = 0`, and of the datum of an update. -/
theorem Pins.mem_undefinedDeciding_iff {p : Pins} {n : Nat} :
    n ∈ p.undefinedDeciding ↔
      (n = 10 ∧ p.rst = .undef) ∨ (n = 9 ∧ p.rst = .low ∧ p.init = .undef) ∨
      (n = 8 ∧ p.rst = .low ∧ p.dinValid = .undef) ∨
      (p.rst = .low ∧ p.dinValid = .high ∧ ∃ k : Fin 8, n = k.val ∧ p.din[k] = .undef) := by
  rw [Pins.undefinedDeciding, List.mem_filter, Pins.mem_deciding, decide_eq_true_iff]
  constructor
  · rintro ⟨rfl | ⟨hr, rfl | rfl⟩ | ⟨hr, hv, hk⟩, hu⟩
    · exact .inl ⟨rfl, hu⟩
    · exact .inr (.inl ⟨rfl, hr, hu⟩)
    · exact .inr (.inr (.inl ⟨rfl, hr, hu⟩))
    · exact .inr (.inr (.inr ⟨hr, hv, ⟨n, hk⟩, rfl, p.level_of_lt hk ▸ hu⟩))
  · rintro (⟨rfl, hu⟩ | ⟨rfl, hr, hu⟩ | ⟨rfl, hr, hu⟩ | ⟨hr, hv, k, rfl, hu⟩)
    · exact ⟨.inl rfl, hu⟩
    · exact ⟨.inr (.inl ⟨hr, .inl rfl⟩), hu⟩
    · exact ⟨.inr (.inl ⟨hr, .inr rfl⟩), hu⟩
    · exact ⟨.inr (.inr ⟨hr, hv, k.isLt⟩), (p.level_of_lt k.isLt).trans hu⟩

end Sys2Proof

namespace Sys2Proof.Machine

variable {s t : State}

/-- Everything a step can do that does not complete. -/
theorem step_stops_cases (s : State) :
    (∃ t, step s = .next t) ∨
    (∃ rest, s.pending = .observe :: rest ∧ s.crc = .unwritten ∧ step s = .fault (.unwrittenRead s.edge)) ∨
    (∃ p rest bits, s.pending = .edge p :: rest ∧ decodePins p = .error bits ∧
      step s = .refused (.undefinedInput s.edge bits)) := by
  match hs : s.pending with
  | [] => exact .inl ⟨s, step_idle hs⟩
  | .edge p :: rest =>
    cases hp : decodePins p with
    | ok i => exact .inl ⟨_, (step_edge_ok hs hp).trans (exec_eq ..)⟩
    | error bits => exact .inr (.inr ⟨p, rest, bits, rfl, hp, step_edge_error hs hp⟩)
  | .observe :: rest =>
    rcases observe_cases rest s with ⟨v, -, ho⟩ | ⟨hu, ho⟩
    · exact .inl ⟨_, (step_observe hs).trans ho⟩
    · exact .inr (.inl ⟨rest, rfl, hu, (step_observe hs).trans ho⟩)
  | .powerOn :: rest => exact .inl ⟨_, step_powerOn hs⟩

theorem step_eq_fault_iff {f : Fault} :
    step s = .fault f ↔ f = .unwrittenRead s.edge ∧ s.crc = .unwritten ∧ ∃ rest, s.pending = .observe :: rest := by
  constructor
  · intro h
    rcases step_stops_cases s with ⟨t, ht⟩ | ⟨rest, hs, hu, hf⟩ | ⟨p, rest, bits, -, -, hr⟩
    · simp [ht] at h
    · rw [hf] at h
      exact ⟨(Host.Outcome.fault.inj h).symm, hu, rest, hs⟩
    · simp [hr] at h
  · rintro ⟨rfl, hu, rest, hs⟩
    exact (step_observe hs).trans (observe_unwritten rest hu)

theorem step_eq_refused_iff {r : Refusal} :
    step s = .refused r ↔
      ∃ p rest bits, s.pending = .edge p :: rest ∧ decodePins p = .error bits ∧ r = .undefinedInput s.edge bits := by
  constructor
  · intro h
    rcases step_stops_cases s with ⟨t, ht⟩ | ⟨rest, -, -, hf⟩ | ⟨p, rest, bits, hs, hp, hr⟩
    · simp [ht] at h
    · simp [hf] at h
    · rw [hr] at h
      exact ⟨p, rest, bits, hs, hp, (Host.Outcome.refused.inj h).symm⟩
  · rintro ⟨p, rest, bits, hs, hp, rfl⟩
    exact step_edge_error hs hp

/-! ## Runs that never stop -/

/-- A step that completes is done with its move. -/
theorem step_next_pending (h : step s = .next t) : t.pending = s.pending.tail := by
  rcases step_next_cases h with ⟨hs, rfl⟩ | ⟨p, rest, i, hs, -, rfl⟩ | ⟨rest, v, hs, -, rfl⟩ | ⟨rest, hs, rfl⟩ <;>
    simp [hs]

/-- The converse of `State.Safe.exists_step_next`. -/
theorem State.safe_of_step_next (h : step s = .next t) (ht : t.Safe) : s.Safe := by
  show movesSafe s.crc.written s.pending = true
  rcases step_next_cases h with ⟨-, rfl⟩ | ⟨p, rest, i, hs, hp, rfl⟩ | ⟨rest, v, hs, hv, rfl⟩ | ⟨rest, hs, rfl⟩
  · exact ht
  · rw [hs, movesSafe_edge_ok hp, ← Acc.written_after]
    exact ht
  · have hwritten : s.crc.written = true := by rw [hv]; rfl
    rw [hs]
    exact movesSafe_observe_iff.2 ⟨hwritten, ht⟩
  · rw [hs]
    exact ht

/-- Where no run stops, every pending move is reached, so none of them is unsafe. -/
theorem State.safe_of_runs_next (h : ∀ n, ∃ t, Host.Core.run core n s = .next t) : s.Safe := by
  induction hs : s.pending generalizing s with
  | nil => simp [State.Safe, hs, movesSafe]
  | cons mv rest ih =>
    obtain ⟨t, ht⟩ := h 1
    rw [run_one] at ht
    refine State.safe_of_step_next ht (ih (fun n => ?_) (by simp [step_next_pending ht, hs]))
    rw [← run_next ht]
    exact h (n + 1)

end Sys2Proof.Machine
end

section
open Sys2Proof Sys2Proof.Machine

/-- Settles O43: the fault and the refusal of a step, and the bits that pins are rejected by. -/
theorem stepStopsOnlyAsTheSpecSays : Obligations.StepStopsOnlyAsTheSpecSays := by
  refine ⟨fun p bits h => ?_, fun s => ⟨fun _ => step_eq_fault_iff, fun _ => step_eq_refused_iff⟩⟩
  obtain ⟨rfl, hne⟩ := (decodePins_error_iff p bits).1 h
  exact ⟨hne, fun _ => Pins.mem_undefinedDeciding_iff⟩

/-- Settles O45: a safe state never stops, and where no run stops every pending move is reached. -/
theorem safeExactlyWhenNoRunStops : Obligations.SafeExactlyWhenNoRunStops :=
  fun _ => ⟨State.Safe.exists_run_next, State.safe_of_runs_next⟩

end

section
/-! What a step does to `crc` (R21, R22, R100). -/

namespace Sys2Proof.Machine

variable {s t : State}

/-- A command leaves the accumulator unwritten where it was so and the command is no seed load. -/
theorem Acc.after_eq_unwritten_iff {a : Acc} {i : Instr} : a.after i = .unwritten ↔ a = .unwritten ∧ seedLoad i = false := by
  have hiff (c : Acc) : c = .unwritten ↔ c.written = false := by cases c <;> simp [Acc.written]
  rw [hiff, hiff, Acc.written_after, Bool.or_eq_false_iff]

/-- The ways a command leaves the accumulator (R22). -/
theorem Acc.after_cases (a : Acc) (i : Instr) :
    (i = .nop ∧ a.after i = a) ∨ ((i = .init ∨ i = .reset) ∧ a.after i = .val seed) ∨
    (∃ b, i = .initUpdate b ∧ a.after i = .val (crcStep seed b)) ∨
    (∃ b v, i = .update b ∧ a = .val v ∧ a.after i = .val (crcStep v b)) ∨
    (∃ b, i = .update b ∧ a = .unwritten ∧ a.after i = .unwritten) := by
  cases i with
  | nop => exact .inl ⟨rfl, rfl⟩
  | init => exact .inr (.inl ⟨.inl rfl, rfl⟩)
  | reset => exact .inr (.inl ⟨.inr rfl, rfl⟩)
  | initUpdate b => exact .inr (.inr (.inl ⟨b, rfl, rfl⟩))
  | update b =>
    cases a with
    | val v => exact .inr (.inr (.inr (.inl ⟨b, v, rfl, rfl, rfl⟩)))
    | unwritten => exact .inr (.inr (.inr (.inr ⟨b, rfl, rfl, rfl⟩)))

/-- A step of two states that agree on `crc` and on the moves: both complete and agree again, both fault, or both are refused. -/
theorem step_congr {s s' : State} (hcrc : s.crc = s'.crc) (hpending : s.pending = s'.pending) :
    (∃ t t', step s = .next t ∧ step s' = .next t' ∧ t'.crc = t.crc ∧ t'.pending = t.pending) ∨
    (∃ f f', step s = .fault f ∧ step s' = .fault f') ∨ (∃ r r', step s = .refused r ∧ step s' = .refused r') := by
  match hs : s.pending with
  | [] => exact .inl ⟨s, s', step_idle hs, step_idle (hpending ▸ hs), hcrc.symm, hpending.symm⟩
  | .edge p :: rest =>
    have hs' := hpending ▸ hs
    cases hp : decodePins p with
    | ok i =>
      exact .inl ⟨_, _, (step_edge_ok hs hp).trans (exec_eq ..), (step_edge_ok hs' hp).trans (exec_eq ..),
        by simp [hcrc], rfl⟩
    | error bits => exact .inr (.inr ⟨_, _, step_edge_error hs hp, step_edge_error hs' hp⟩)
  | .observe :: rest =>
    have hs' := hpending ▸ hs
    rw [step_observe hs, step_observe hs']
    cases hv : s.crc with
    | unwritten => exact .inr (.inl ⟨_, _, observe_unwritten rest hv, observe_unwritten rest (hcrc ▸ hv)⟩)
    | val v => exact .inl ⟨_, _, observe_val rest hv, observe_val rest (hcrc ▸ hv), hcrc.symm, rfl⟩
  | .powerOn :: rest => exact .inl ⟨_, _, step_powerOn hs, step_powerOn (hpending ▸ hs), rfl, rfl⟩

end Sys2Proof.Machine
end

section
open Sys2Proof Sys2Proof.Machine

/-- Settles O49: an edge leaves what its command leaves; the other moves write no value. -/
theorem onlySeedAndUpdatesAreWritten : Obligations.OnlySeedAndUpdatesAreWritten := by
  intro s t h
  rcases step_next_cases h with ⟨hs, rfl⟩ | ⟨p, rest, i, hs, hp, rfl⟩ | ⟨rest, v, hs, -, rfl⟩ | ⟨rest, hs, rfl⟩
  · exact .inr ⟨by simp [hs], rfl, .inl ⟨by simp [hs], rfl⟩⟩
  · exact .inl ⟨p, rest, i, hs, hp, rfl, rfl, s.crc.after_cases i⟩
  · exact .inr ⟨by simp [hs], rfl, .inl ⟨by simp [hs], rfl⟩⟩
  · exact .inr ⟨by simp [hs], rfl, .inr ⟨⟨rest, hs⟩, rfl, rfl⟩⟩

/-- Settles O50: of the moves only an edge can write `crc`, with a seed load, and only power returning can lose it. -/
theorem writtenFromTheFirstSeedLoadOn : Obligations.WrittenFromTheFirstSeedLoadOn := by
  intro s t h
  rcases step_next_cases h with ⟨hs, rfl⟩ | ⟨p, rest, i, hs, hp, rfl⟩ | ⟨rest, v, hs, hv, rfl⟩ | ⟨rest, hs, rfl⟩
  · simp [hs]
  · refine ⟨fun hu => ?_, fun hu => ?_⟩
    · simp [hs, hp, hu, Acc.after_eq_unwritten_iff]
    · simp [hs, hu, Acc.after_eq_unwritten_iff]
  · simp [hs]
  · simp [hs]

/-- Settles O51: by the two states' common move. -/
theorem nextAccumulatorDependsOnCrcAndInputs : Obligations.NextAccumulatorDependsOnCrcAndInputs := by
  intro s s' hcrc hpending
  rcases step_congr hcrc hpending with ⟨t, t', hs, hs', ht⟩ | ⟨f, f', hs, hs'⟩ | ⟨r, r', hs, hs'⟩
  · simp [hs, hs', ht]
  · simp [hs, hs']
  · simp [hs, hs']

end

section
/-! Steps and runs of a host whose moves are presented: edges, observations, power returning, and none. -/

namespace Sys2Proof.Machine

/-- What a command word leaves in the accumulator (R106). -/
theorem Acc.after_decode (a : Acc) (cw : CommandWord) :
    a.after (decode cw) =
      if cw.getLsbD 10 then .val seed
      else if cw.getLsbD 9 then (if cw.getLsbD 8 then .val (crcStep seed (dataField cw)) else .val seed)
      else if cw.getLsbD 8 then a.consume (dataField cw) else a := by
  unfold decode
  split_ifs <;> rfl

/-- An edge with a command word completes with what the word leaves. -/
theorem step_presented_word (s : State) (cw : CommandWord) (rest : List HostMove) :
    step { s with pending := .edge (Pins.ofWord cw) :: rest } =
      .next { s with crc := s.crc.after (decode cw), pending := rest, edge := s.edge + 1 } :=
  (step_presented_ok s rest (decodePins_ofWord cw)).trans (exec_eq ..)

/-- `observe_val` for a host whose next move is the observation. -/
theorem step_presented_observe_val {s : State} {v : Word} (hv : s.crc = .val v) (rest : List HostMove) :
    step { s with pending := .observe :: rest } = .next { s with pending := rest, seen := s.seen ++ [(s.edge, v)] } :=
  (step_presented_observe s rest).trans (observe_val rest hv)

/-- A command's table word is presented as the word itself. -/
theorem withFetchWord_encode (s : State) (i : Instr) :
    s.withFetchWord 16 (encode i).toNat = { s with pending := .edge (Pins.ofWord (encode i)) :: s.pending } := by
  simp [State.withFetchWord, State.presentTableWord, State.drive]

/-- Without a move the state stays, however long (U7). -/
theorem run_idle {s : State} (hs : s.pending = []) (n : Nat) : Host.Core.run core n s = .next s := by
  induction n with
  | zero => exact run_zero s
  | succ n ih => rw [run_next (step_idle hs), ih]

end Sys2Proof.Machine
end

section
open Sys2Proof Sys2Proof.Machine

/-- Settles O13: the word on the pins decodes to its command, which leaves what its bits say. -/
theorem edgeWritesTheNextAccumulator : Obligations.EdgeWritesTheNextAccumulator := by
  intro s cw rest
  rw [step_presented_word, Acc.after_decode]
  cases s.crc <;> rfl

/-- Settles O19: move by move; each observation reads the accumulator of its own interval. -/
theorem resultShowsOneEdgeLater : Obligations.ResultShowsOneEdgeLater := by
  intro s cw v w rest hv hexec
  have hw : s.crc.after (decode cw) = .val w := by
    rw [exec_eq] at hexec
    exact congrArg State.crc (Host.Outcome.next.inj hexec)
  have hbefore := step_presented_observe_val hv (.edge (Pins.ofWord cw) :: .observe :: rest)
  have hedge := step_presented_word { s with seen := s.seen ++ [(s.edge, v)] } cw (.observe :: rest)
  have hafter := step_presented_observe_val (s := { s with crc := .val w, edge := s.edge + 1, seen := s.seen ++ [(s.edge, v)] })
    rfl rest
  rw [hw] at hedge
  rw [List.append_assoc] at hafter
  exact (run_next hbefore 2).trans ((run_next hedge 1).trans ((run_one _).trans hafter))

/-- Settles O20: the run of the edges and the sequence both end in the fold of `Acc.after`. -/
theorem runOfEdgesIsTheCommandSequence : Obligations.RunOfEdgesIsTheCommandSequence := by
  intro s edges cmds rest h
  have hlen : cmds.length = edges.length := by simpa using (congrArg List.length h).symm
  rw [hlen, run_edges h s rest, execAll_eq]
  rfl

/-- Settles O12: `step` at an edge is `exec` after `State.clock`; the table word of a command presents its word. -/
theorem stepRunsTheDecodedInstruction : Obligations.StepRunsTheDecodedInstruction := by
  refine ⟨fun s p rest i hs hp => step_edge_ok hs hp, fun s i => ?_⟩
  have hp : decodePins (Pins.ofWord (encode i)) = .ok i := by rw [decodePins_ofWord, decode_encode]
  rw [withFetchWord_encode]
  exact step_presented_ok s s.pending hp

/-- Settles O15: the second observation finds what the first left, with the same edge next. -/
theorem observationIsRecorded : Obligations.ObservationIsRecorded := by
  intro s rest v hv
  have hfirst := step_presented_observe_val hv (.observe :: rest)
  have hsecond := step_presented_observe_val (s := { s with seen := s.seen ++ [(s.edge, v)] }) hv rest
  rw [List.append_assoc] at hsecond
  exact ⟨step_presented_observe_val hv rest, (run_next hfirst 1).trans ((run_one _).trans hsecond)⟩

/-- Settles O16: power returning leaves `Unwritten`, which the observation then finds. -/
theorem powerOnLeavesTheAccumulatorUnwritten : Obligations.PowerOnLeavesTheAccumulatorUnwritten := by
  have hstep (s : State) (rest : List HostMove) :
      step { s with pending := .powerOn :: rest } = .next { s with crc := .unwritten, pending := rest } := step_powerOn rfl
  refine ⟨rfl, hstep, fun s rest => ?_⟩
  rw [run_next (hstep s _), run_one, step_observe rfl]
  exact observe_unwritten rest rfl

/-- Settles O17: by the rule of the idle step. -/
theorem noMoveChangesNothing : Obligations.NoMoveChangesNothing :=
  fun _ n hs => run_idle hs n

end

section
/-! Command sequences on the accumulator: the fold (R91), NOPs (R137), updates, and the host sequences of a message (R135). -/

namespace Sys2Proof.Machine

theorem crcFold_append (a : Word) (m1 m2 : List Byte) : crcFold a (m1 ++ m2) = crcFold (crcFold a m1) m2 := by
  induction m1 generalizing a with
  | nil => rfl
  | cons b m1 ih => exact ih (crcStep a b)

/-! ## NOPs -/

/-- NOPs do not matter to the accumulator (R137). -/
theorem foldl_after_dropNops (cmds : List Instr) (a : Acc) :
    (dropNops cmds).foldl Acc.after a = cmds.foldl Acc.after a := by
  rw [dropNops, List.foldl_filter]
  congr 1
  funext a i
  cases i <;> rfl

theorem execAll_dropNops (cmds : List Instr) (s : State) : execAll (dropNops cmds) s = execAll cmds s := by
  rw [execAll_eq, execAll_eq, foldl_after_dropNops]

theorem dropNops_append (cmds rest : List Instr) : dropNops (cmds ++ rest) = dropNops cmds ++ dropNops rest :=
  List.filter_append ..

/-- NOPs consume no byte. -/
theorem countP_consumesByte_dropNops (cmds : List Instr) :
    (dropNops cmds).countP consumesByte = cmds.countP consumesByte := by
  rw [dropNops, List.countP_filter]
  refine List.countP_congr fun i _ => ?_
  cases i <;> simp [consumesByte]

/-- A sequence is its NOPs and the rest of its commands. -/
theorem length_eq_length_dropNops_add (cmds : List Instr) : cmds.length = (dropNops cmds).length + cmds.count .nop := by
  rw [dropNops, ← List.countP_eq_length_filter, List.count,
    List.length_eq_countP_add_countP (fun i : Instr => i ≠ .nop)]
  congr 1
  exact List.countP_congr fun i _ => by simp

/-! ## Updates -/

/-- UPDATEs continue the fold. -/
theorem foldl_after_updates (m : List Byte) (a : Word) :
    (m.map Instr.update).foldl Acc.after (.val a) = .val (crcFold a m) := by
  induction m generalizing a with
  | nil => rfl
  | cons b m ih => exact ih (crcStep a b)

/-- UPDATEs write nothing into an unwritten accumulator. -/
theorem foldl_after_updates_unwritten (m : List Byte) : (m.map Instr.update).foldl Acc.after .unwritten = .unwritten := by
  induction m with
  | nil => rfl
  | cons b m ih => exact ih

theorem countP_consumesByte_updates (m : List Byte) : (m.map Instr.update).countP consumesByte = m.length := by
  rw [List.countP_map, List.countP_eq_length]
  exact fun _ _ => rfl

/-! ## The host sequences of a message -/

/-- The bytes a command consumes (R13). -/
def consumedBytes : Instr → List Byte
  | .initUpdate b => [b]
  | .update b => [b]
  | .reset | .init | .nop => []

theorem length_consumedBytes (i : Instr) : (consumedBytes i).length = if consumesByte i then 1 else 0 := by
  cases i <;> rfl

/-- A seed load leaves the fold of what it consumes, from the seed. -/
theorem Acc.after_seedLoad {i : Instr} (h : seedLoad i = true) (a : Acc) :
    a.after i = .val (crcFold seed (consumedBytes i)) := by
  cases i with
  | reset | init | initUpdate => rfl
  | update | nop => cases h

/-- What a seed load with UPDATEs after it leaves, from every accumulator. -/
theorem foldl_after_seedLoad_updates {i : Instr} (h : seedLoad i = true) (l : List Byte) (a : Acc) :
    (i :: l.map Instr.update).foldl Acc.after a = .val (crcFold seed (consumedBytes i ++ l)) := by
  rw [List.foldl_cons, Acc.after_seedLoad h, foldl_after_updates, crcFold_append]

/-- A host sequence for a message (R135): without its NOPs a seed load, which may consume the first byte, and an UPDATE for every
byte after. -/
theorem isMessage_iff {cmds : List Instr} {m : List Byte} :
    isMessage cmds m = true ↔
      ∃ i l, seedLoad i = true ∧ dropNops cmds = i :: l.map .update ∧ m = consumedBytes i ++ l := by
  rw [isMessage, List.contains_iff_mem]
  constructor
  · intro h
    cases m with
    | nil =>
      obtain h | h : dropNops cmds = [.init] ∨ dropNops cmds = [.reset] := by simpa [messageForms] using h
      · exact ⟨.init, [], rfl, h, rfl⟩
      · exact ⟨.reset, [], rfl, h, rfl⟩
    | cons b m =>
      simp only [messageForms, List.mem_append, List.mem_cons, List.not_mem_nil, or_false] at h
      rcases h with (h | h) | h
      · exact ⟨.init, b :: m, rfl, h, rfl⟩
      · exact ⟨.reset, b :: m, rfl, h, rfl⟩
      · exact ⟨.initUpdate b, m, rfl, h, rfl⟩
  · rintro ⟨i, l, hi, hcmds, rfl⟩
    rw [hcmds]
    cases i with
    | reset | init | initUpdate => simp [messageForms, consumedBytes]
    | update | nop => cases hi

/-- A beginning of a host sequence that holds its seed load is a host sequence for the bytes it consumes. -/
theorem isMessage_take {cmds rest : List Instr} {m : List Byte} (h : isMessage (cmds ++ rest) m = true)
    (hne : dropNops cmds ≠ []) : isMessage cmds (m.take (cmds.countP consumesByte)) = true := by
  obtain ⟨i, l, hi, hcmds, rfl⟩ := isMessage_iff.1 h
  rw [dropNops_append, List.append_eq_cons_iff] at hcmds
  obtain ⟨hnil, -⟩ | ⟨pre, hpre, hl⟩ := hcmds
  · exact absurd hnil hne
  · obtain ⟨l1, l2, rfl, rfl, -⟩ := List.map_eq_append_iff.1 hl
    refine isMessage_iff.2 ⟨i, l1, hi, hpre, ?_⟩
    have hcount : cmds.countP consumesByte = (consumedBytes i ++ l1).length := by
      rw [← countP_consumesByte_dropNops, hpre, List.countP_cons, countP_consumesByte_updates, List.length_append,
        length_consumedBytes, Nat.add_comm]
    rw [hcount, ← List.append_assoc, List.take_left]

/-- A host sequence for a message leaves its CRC, whatever the accumulator held. -/
theorem foldl_after_message {cmds : List Instr} {m : List Byte} (h : isMessage cmds m = true) (a : Acc) :
    cmds.foldl Acc.after a = .val (crcFold seed m) := by
  obtain ⟨i, l, hi, hcmds, rfl⟩ := isMessage_iff.1 h
  rw [← foldl_after_dropNops, hcmds, foldl_after_seedLoad_updates hi]

theorem execAll_message {cmds : List Instr} {m : List Byte} (h : isMessage cmds m = true) (s : State) :
    execAll cmds s = .next { s with crc := .val (crcFold seed m) } := by
  rw [execAll_eq, foldl_after_message h]
  rfl

/-- A host sequence has a command for every byte, one more where its seed load consumes none, and its NOPs. -/
theorem length_message {cmds : List Instr} {m : List Byte} (h : isMessage cmds m = true) :
    cmds.length = m.length + cmds.count .nop ∨ cmds.length = m.length + 1 + cmds.count .nop := by
  obtain ⟨i, l, -, hcmds, rfl⟩ := isMessage_iff.1 h
  rw [length_eq_length_dropNops_add, hcmds, List.length_append, length_consumedBytes, List.length_cons, List.length_map]
  split <;> omega

/-! ## The pseudo-instructions' bytes -/

/-- The UPDATEs of the numerals of bytes. -/
theorem updates_map_toNat (m : List Byte) : updates (m.map (·.toNat)) = m.map .update := by
  simp [updates]

end Sys2Proof.Machine
end

section
open Sys2Proof Sys2Proof.Machine

/-- Settles O31: by induction on the first part. -/
theorem foldOfConcatenation : Obligations.FoldOfConcatenation :=
  ⟨crcFold_nil, crcFold_cons, crcFold_append⟩

/-- Settles O35: both calls pass the check and fold the same first bytes. -/
theorem laterBytesDoNotMatter : Obligations.LaterBytesDoNotMatter := by
  intro m m' k hm htake hm'
  rw [computeCrc_of_le_length hm, computeCrc_of_le_length hm', htake]

/-- Settles O38: a beginning of a host sequence is a host sequence of what it consumes, and `compute_crc` folds the same bytes. -/
theorem messageSequenceGivesItsCrc : Obligations.MessageSequenceGivesItsCrc := by
  refine ⟨fun s cmds rest m h hne => execAll_message (isMessage_take h hne) s, fun s cmds m h => execAll_message h s,
    fun m r hm => ?_⟩
  have hlen : (BitVec.ofNat 8 m.length).toNat = m.length := Nat.mod_eq_of_lt (by omega)
  have hle : (BitVec.ofNat 8 m.length).toNat ≤ (m ++ r).length := by simp [hlen]
  rw [computeCrc_of_le_length hle, hlen, List.take_left]
  rfl

/-- Settles O39: a run of edges leaves what its commands leave, one edge for each. -/
theorem messageTakesOneEdgePerCommand : Obligations.MessageTakesOneEdgePerCommand := by
  intro s edges cmds m rest h hm
  have hlen : edges.length = cmds.length := by simpa using congrArg List.length h
  refine ⟨?_, hlen ▸ length_message hm⟩
  rw [run_edges h s rest, foldl_after_message hm]
  rfl

/-- Settles O40: each sequence does what it does without its NOPs. -/
theorem stallsChangeNoResult : Obligations.StallsChangeNoResult := by
  intro s cmds cmds' h
  rw [← execAll_dropNops cmds, h, execAll_dropNops]

/-- Settles O41: UPDATEs continue the fold from a value, and INIT with UPDATEs after it is a host sequence. -/
theorem updatesContinueTheFold : Obligations.UpdatesContinueTheFold := by
  refine ⟨fun s b => ?_, fun s a m => ?_, fun s m1 m2 => ?_, fun s m => ?_⟩
  · rw [exec_eq, execAll_eq]
    rfl
  · rw [execAll_eq, foldl_after_updates]
    rfl
  · rw [execAll_eq, List.cons_append, ← List.map_append, foldl_after_seedLoad_updates rfl]
    rfl
  · rw [execAll_eq, foldl_after_updates_unwritten]
    rfl

/-- Settles O54: the expansions, of which MSG and MSGF are a seed load with UPDATEs after it. -/
theorem pseudoInstructionsExpand : Obligations.PseudoInstructionsExpand := by
  have hmsg (m : List Byte) : expandLine (.msg (m.map (·.toNat))) = .init :: m.map .update :=
    congrArg _ (updates_map_toNat m)
  have hmsgf (b : Byte) (m : List Byte) :
      expandLine (.msgf ((b :: m).map (·.toNat))) = .initUpdate b :: m.map .update := by
    simp [expandLine, updates_map_toNat]
  refine ⟨fun _ => rfl, rfl, hmsg, hmsgf, updates_map_toNat, fun m s hne => ?_⟩
  obtain ⟨b, m, rfl⟩ := List.exists_cons_of_ne_nil hne
  rw [hmsg, hmsgf, execAll_eq, execAll_eq, foldl_after_seedLoad_updates rfl, foldl_after_seedLoad_updates rfl]
  exact ⟨rfl, rfl, by simp⟩

/-- Settles O36: the four folds. -/
theorem orderOfBytesMatters : Obligations.OrderOfBytesMatters := by
  unfold Obligations.OrderOfBytesMatters
  decide

/-- Settles O37: the fold of the nine bytes. -/
theorem checkValue : Obligations.CheckValue := by
  unfold Obligations.CheckValue
  decide

end

section
/-! The update by bytes (R82, R83): the accumulator's low byte moved up, and the feedback of its high byte XORed with the message
byte. Each wire of the update is a shift of one folded byte, and everything is linear over GF(2). -/

namespace Sys2Proof.Machine

/-! ## Bytes and words -/

@[simp] theorem hiByte_zero : hiByte 0#16 = 0#8 := rfl
@[simp] theorem loByte_zero : loByte 0#16 = 0#8 := rfl
@[simp] theorem joinBytes_zero : joinBytes 0#8 0#8 = 0#16 := rfl

theorem zext16_xor (b b' : Byte) : zext16 (b ^^^ b') = zext16 b ^^^ zext16 b' := BitVec.setWidth_xor

theorem zext16_ushiftRight (b : Byte) (n : Nat) : zext16 (b >>> n) = zext16 b >>> n :=
  BitVec.setWidth_ushiftRight (by decide)

@[simp] theorem hiByte_zext16 (b : Byte) : hiByte (zext16 b) = 0x00 := by
  apply BitVec.eq_of_getLsbD_eq
  intro k hk
  simp [getLsbD_hiByte, getLsbD_zext16]

@[simp] theorem loByte_zext16 (b : Byte) : loByte (zext16 b) = b := by
  apply BitVec.eq_of_getLsbD_eq
  intro k hk
  rw [getLsbD_loByte, getLsbD_zext16]
  simp [hk]

/-- What a byte shifted left puts into the high byte. -/
theorem hiByte_zext16_shiftLeft (b : Byte) {n : Nat} (hn : n ≤ 8) : hiByte (zext16 b <<< n) = b >>> (8 - n) := by
  apply BitVec.eq_of_getLsbD_eq
  intro k hk
  have hlt : 8 + k < 16 := by omega
  have hge : ¬ 8 + k < n := by omega
  have hsub : 8 + k - n = 8 - n + k := by omega
  rw [getLsbD_hiByte, BitVec.getLsbD_shiftLeft, getLsbD_zext16, BitVec.getLsbD_ushiftRight]
  simp [hk, hlt, hge, hsub]

theorem loByte_shiftLeft (v : Word) (n : Nat) : loByte (v <<< n) = loByte v <<< n := by
  apply BitVec.eq_of_getLsbD_eq
  intro k hk
  have hlt : k < 16 := by omega
  have hsub : k - n < 8 := by omega
  rw [getLsbD_loByte, BitVec.getLsbD_shiftLeft, BitVec.getLsbD_shiftLeft, getLsbD_loByte]
  simp [hk, hlt, hsub]

theorem hiByte_and (v w : Word) : hiByte (v &&& w) = hiByte v &&& hiByte w := BitVec.extractLsb'_and

theorem loByte_and (v w : Word) : loByte (v &&& w) = loByte v &&& loByte w := BitVec.extractLsb'_and

/-- A word is given by its two bytes. -/
theorem word_ext {v w : Word} (hhi : hiByte v = hiByte w) (hlo : loByte v = loByte w) : v = w := by
  rw [← joinBytes_hiByte_loByte v, hhi, hlo, joinBytes_hiByte_loByte]

theorem joinBytes_xor (h h' l l' : Byte) :
    joinBytes (h ^^^ h') (l ^^^ l') = joinBytes h l ^^^ joinBytes h' l' :=
  word_ext (by simp [hiByte_xor]) (by simp [loByte_xor])

theorem xor_xor_xor_comm {w : Nat} (a b c d : BitVec w) : (a ^^^ b) ^^^ (c ^^^ d) = (a ^^^ c) ^^^ (b ^^^ d) := by
  ac_rfl

/-! ## The folded byte and the feedback -/

/-- A byte folded onto its low nibble: `q` of R83, from `t`. -/
def foldByte (t : Byte) : Byte := t ^^^ (t >>> 4)

/-- What the update XORs onto the accumulator moved up: `q ^ (q << 5) ^ (q << 12)` (R83). -/
def feedback (q : Byte) : Word := zext16 q ^^^ (zext16 q <<< 5) ^^^ (zext16 q <<< 12)

/-- The low byte of the feedback: the folded byte, its low bits XORed onto its high ones. -/
def lowFeedback (q : Byte) : Byte := q ^^^ (q <<< 5)

theorem foldByte_xor (t u : Byte) : foldByte (t ^^^ u) = foldByte t ^^^ foldByte u := by
  simp only [foldByte, BitVec.ushiftRight_xor_distrib, xor_xor_xor_comm]

theorem feedback_xor (q r : Byte) : feedback (q ^^^ r) = feedback q ^^^ feedback r := by
  simp only [feedback, zext16_xor, BitVec.shiftLeft_xor_distrib, xor_xor_xor_comm]

theorem loByte_feedback (q : Byte) : loByte (feedback q) = lowFeedback q := by
  have hout : q <<< 12 = 0 := BitVec.shiftLeft_eq_zero (by decide)
  simp [feedback, lowFeedback, loByte_xor, loByte_shiftLeft, hout]

/-! ## The wires -/

variable (c : Word) (b : Byte)

theorem SubSteps.temp_eq : (subSteps c b).temp = zext16 (hiByte c ^^^ b) := by
  rw [zext16_xor, zext16_hiByte]
  rfl

theorem SubSteps.acc2_eq : (subSteps c b).acc2 = joinBytes (loByte c) 0x00 := shiftLeft_eight_eq_joinBytes c

theorem SubSteps.quick3_eq : (subSteps c b).quick3 = zext16 (foldByte (hiByte c ^^^ b)) := by
  rw [foldByte, zext16_xor, zext16_ushiftRight, ← SubSteps.temp_eq]
  rfl

theorem SubSteps.quick6_eq : (subSteps c b).quick6 = (subSteps c b).quick3 <<< 12 :=
  (BitVec.shiftLeft_add ..).symm

/-- The update is the low byte moved up and the feedback. -/
theorem crcStep_eq_feedback :
    crcStep c b = joinBytes (loByte c) 0x00 ^^^ feedback (foldByte (hiByte c ^^^ b)) := by
  calc crcStep c b
    _ = (subSteps c b).acc2 ^^^ (subSteps c b).quick3 ^^^ ((subSteps c b).quick3 <<< 5) ^^^ (subSteps c b).quick6 := rfl
    _ = joinBytes (loByte c) 0x00 ^^^ feedback (foldByte (hiByte c ^^^ b)) := by
      simp only [SubSteps.quick6_eq, SubSteps.acc2_eq, SubSteps.quick3_eq, feedback, BitVec.xor_assoc]

theorem crcStepClosed_eq_feedback :
    crcStepClosed c b = joinBytes (loByte c) 0x00 ^^^ feedback (foldByte (hiByte c ^^^ b)) := by
  simp only [crcStepClosed, feedback, foldByte, BitVec.xor_assoc]

variable {c b}

/-- The update depends on the high byte and the message byte through their XOR. -/
theorem crcStep_congr {c' : Word} {b' : Byte} (hlo : loByte c = loByte c') (hhi : hiByte c ^^^ b = hiByte c' ^^^ b') :
    crcStep c b = crcStep c' b' := by
  rw [crcStep_eq_feedback, crcStep_eq_feedback, hlo, hhi]

theorem crcStep_xor (c1 c2 : Word) (b1 b2 : Byte) :
    crcStep (c1 ^^^ c2) (b1 ^^^ b2) = crcStep c1 b1 ^^^ crcStep c2 b2 := by
  have hfold : foldByte (hiByte (c1 ^^^ c2) ^^^ (b1 ^^^ b2)) = foldByte (hiByte c1 ^^^ b1) ^^^ foldByte (hiByte c2 ^^^ b2) := by
    rw [← foldByte_xor, hiByte_xor, xor_xor_xor_comm]
  have hlow : joinBytes (loByte (c1 ^^^ c2)) 0x00 = joinBytes (loByte c1) 0x00 ^^^ joinBytes (loByte c2) 0x00 := by
    rw [← joinBytes_xor, loByte_xor]
    rfl
  rw [crcStep_eq_feedback, crcStep_eq_feedback, crcStep_eq_feedback, hfold, hlow, feedback_xor, xor_xor_xor_comm]

end Sys2Proof.Machine
end

section
open Sys2Proof Sys2Proof.Machine

/-- Settles O24: both are the low byte moved up and the feedback. -/
theorem crcStepIsItsClosedForm : Obligations.CrcStepIsItsClosedForm :=
  fun c b => (crcStep_eq_feedback c b).trans (crcStepClosed_eq_feedback c b).symm

/-- Settles O26: each part of the update is linear. -/
theorem crcStepIsLinear : Obligations.CrcStepIsLinear :=
  ⟨crcStep_xor, by decide⟩

/-- Settles O42: each of the two bytes cancels the high byte it meets, and moves the low byte up. -/
theorem residueIsZeroHighByteFirst : Obligations.ResidueIsZeroHighByteFirst := by
  refine ⟨fun m => ?_, by decide⟩
  have hsecond (l : Byte) : crcStep (joinBytes l 0x00) l = 0x0000 := by
    simpa using crcStep_hiByte (joinBytes l 0x00)
  rw [crcFold_append, crcFold_cons, crcFold_cons, crcFold_nil, crcStep_hiByte, hsecond]

/-- Settles O29: the corner cases of the low byte moved up and the feedback, and the examples. -/
theorem crcStepCornerCases : Obligations.CrcStepCornerCases := by
  refine ⟨crcStep_hiByte, fun c b => ?_, fun x => crcStep_congr (by simp) (by simp), by decide⟩
  have hlo : loByte (c &&& 0xFF00) = 0#8 := by
    rw [loByte_and, show loByte 0xFF00 = 0#8 by decide, BitVec.and_zero]
  have hhi : hiByte (c &&& 0xFF00) = hiByte c := by
    rw [hiByte_and, show hiByte 0xFF00 = BitVec.allOnes 8 by decide, BitVec.and_allOnes]
  rw [crcStep_eq_feedback, crcStep_eq_feedback, hlo, hhi]
  simp

end

section
/-! The update loses nothing (R90): its two bytes give back the folded byte, and then both bytes of the accumulator. -/

namespace Sys2Proof.Machine

/-- Folding a byte twice gives it back: its high nibble stays, and its low one is XORed with the high one twice. -/
@[simp] theorem foldByte_foldByte (t : Byte) : foldByte (foldByte t) = t := by
  have hout : t >>> 8 = 0#8 := BitVec.ushiftRight_eq_zero le_rfl
  calc foldByte (foldByte t)
    _ = (t ^^^ t >>> 4) ^^^ (t >>> 4 ^^^ t >>> 8) := by
      rw [foldByte, foldByte, BitVec.ushiftRight_xor_distrib, ← BitVec.shiftRight_add]
    _ = t := by simp [hout]

/-- The low byte of the feedback has lost nothing either: the same XOR again undoes it. -/
@[simp] theorem lowFeedback_lowFeedback (q : Byte) : lowFeedback (lowFeedback q) = q := by
  have hout : q <<< 10 = 0#8 := BitVec.shiftLeft_eq_zero (by decide)
  calc lowFeedback (lowFeedback q)
    _ = (q ^^^ q <<< 5) ^^^ (q <<< 5 ^^^ q <<< 10) := by
      rw [lowFeedback, lowFeedback, BitVec.shiftLeft_xor_distrib, ← BitVec.shiftLeft_add]
    _ = q := by simp [hout]

theorem loByte_crcStep (c : Word) (b : Byte) :
    loByte (crcStep c b) = lowFeedback (foldByte (hiByte c ^^^ b)) := by
  simp [crcStep_eq_feedback, loByte_xor, loByte_feedback]

theorem hiByte_crcStep (c : Word) (b : Byte) :
    hiByte (crcStep c b) = loByte c ^^^ hiByte (feedback (foldByte (hiByte c ^^^ b))) := by
  simp [crcStep_eq_feedback, hiByte_xor]

/-- Equal results come from equal low bytes of the accumulator, and equal XORs of its high byte with the message byte. -/
theorem crcStep_eq_crcStep_iff {c c' : Word} {b b' : Byte} :
    crcStep c b = crcStep c' b' ↔ loByte c = loByte c' ∧ hiByte c ^^^ b = hiByte c' ^^^ b' := by
  refine ⟨fun h => ?_, fun ⟨hlo, hhi⟩ => crcStep_congr hlo hhi⟩
  have hl := congrArg loByte h
  have hh := congrArg hiByte h
  rw [loByte_crcStep, loByte_crcStep] at hl
  have hq : foldByte (hiByte c ^^^ b) = foldByte (hiByte c' ^^^ b') := by
    simpa using congrArg lowFeedback hl
  rw [hiByte_crcStep, hiByte_crcStep, hq, BitVec.xor_left_inj] at hh
  exact ⟨hh, by simpa using congrArg foldByte hq⟩

/-- Every word is a result, with any message byte. -/
theorem exists_crcStep_eq (b : Byte) (n : Word) : ∃ c, crcStep c b = n := by
  refine ⟨joinBytes (foldByte (lowFeedback (loByte n)) ^^^ b) (hiByte n ^^^ hiByte (feedback (lowFeedback (loByte n)))),
    word_ext ?_ ?_⟩
  · simp [hiByte_crcStep]
  · simp [loByte_crcStep]

end Sys2Proof.Machine
end

section
open Sys2Proof Sys2Proof.Machine

/-- Settles O30: what equal results have in common, and the accumulator that a result comes from. -/
theorem crcStepLosesNothing : Obligations.CrcStepLosesNothing := by
  refine ⟨fun c b b' h => ?_, fun b c c' h => ?_, exists_crcStep_eq⟩
  · obtain ⟨-, hhi⟩ := crcStep_eq_crcStep_iff.1 h
    exact (BitVec.xor_right_inj _).1 hhi
  · obtain ⟨hlo, hhi⟩ := crcStep_eq_crcStep_iff.1 h
    exact word_ext ((BitVec.xor_left_inj _).1 hhi) hlo

end

section
/-! The bit-serial form (R86): it is linear as the update is, so the words of one bit decide. -/

namespace Sys2Proof.Machine

theorem bitShift_eq (a : Word) : bitShift a = (a <<< 1) ^^^ (if a.getLsbD 15 then polynomial else 0#16) := by
  unfold bitShift
  split <;> simp

theorem bitShift_xor (a b : Word) : bitShift (a ^^^ b) = bitShift a ^^^ bitShift b := by
  rw [bitShift_eq, bitShift_eq a, bitShift_eq b, BitVec.shiftLeft_xor_distrib, xor_xor_xor_comm, BitVec.getLsbD_xor]
  cases a.getLsbD 15 <;> cases b.getLsbD 15 <;> simp

theorem bitShifts_xor (n : Nat) (a b : Word) : bitShifts n (a ^^^ b) = bitShifts n a ^^^ bitShifts n b := by
  induction n generalizing a b with
  | zero => rfl
  | succ n ih => simp only [bitShifts, bitShift_xor, ih]

/-- Taking the highest bit out of a word leaves a word of lower bits. -/
theorem getLsbD_xor_twoPow_eq_false {v : Word} {n : Nat} (hn : n < 16) (hv : ∀ k, n < k → v.getLsbD k = false)
    (hbit : v.getLsbD n = true) {k : Nat} (hk : n ≤ k) : (v ^^^ BitVec.twoPow 16 n).getLsbD k = false := by
  rw [BitVec.getLsbD_xor, BitVec.getLsbD_twoPow]
  rcases Nat.eq_or_lt_of_le hk with rfl | hk
  · simp [hbit, hn]
  · simp [hv k hk, Nat.ne_of_lt hk]

section
variable {f g : Word → Word} (hf : ∀ v w, f (v ^^^ w) = f v ^^^ f w) (hg : ∀ v w, g (v ^^^ w) = g v ^^^ g w)
  (h : ∀ k : Fin 16, f (BitVec.twoPow 16 k) = g (BitVec.twoPow 16 k))
include hf hg h

/-- Two linear functions that agree on the words of one bit agree on the words of the lowest `n` bits. -/
theorem linear_eq_of_low {n : Nat} (hn : n ≤ 16) {v : Word} (hv : ∀ k, n ≤ k → v.getLsbD k = false) : f v = g v := by
  induction n generalizing v with
  | zero =>
    obtain rfl : v = 0#16 ^^^ 0#16 := BitVec.eq_of_getLsbD_eq fun k _ => by simpa using hv k (Nat.zero_le k)
    rw [hf, hg, BitVec.xor_self, BitVec.xor_self]
  | succ n ih =>
    by_cases hbit : v.getLsbD n = true
    · have hrest := ih (by omega) fun k hk => getLsbD_xor_twoPow_eq_false hn hv hbit hk
      rw [hf, hg, h ⟨n, hn⟩] at hrest
      exact (BitVec.xor_left_inj _).1 hrest
    · refine ih (by omega) fun k hk => ?_
      rcases Nat.eq_or_lt_of_le hk with rfl | hk
      · simpa using hbit
      · exact hv k hk

/-- Two linear functions that agree on the words of one bit are equal. -/
theorem linear_ext (v : Word) : f v = g v :=
  linear_eq_of_low hf hg h le_rfl fun k hk => BitVec.getLsbD_of_ge v k hk

end

/-- A message byte can be moved onto the accumulator's high byte. -/
theorem crcStep_eq_crcStep_zero (c : Word) (b : Byte) : crcStep c b = crcStep (c ^^^ (zext16 b <<< 8)) 0x00 := by
  refine crcStep_congr ?_ ?_
  · have hout : b <<< 8 = 0#8 := BitVec.shiftLeft_eq_zero le_rfl
    simp [loByte_xor, loByte_shiftLeft, hout]
  · simp [hiByte_xor, hiByte_zext16_shiftLeft]

/-- Eight iterations of R86's loop are the update with the byte 0. -/
theorem bitShifts_eight (a : Word) : bitShifts 8 a = crcStep a 0x00 :=
  linear_ext (g := (crcStep · 0x00)) (bitShifts_xor 8) (fun v w => crcStep_xor v w 0x00 0x00) (by decide) a

end Sys2Proof.Machine
end

section
open Sys2Proof Sys2Proof.Machine

/-- Settles O27: the byte moves onto the accumulator's high byte, and then eight iterations are the update. -/
theorem crcStepIsBitSerial : Obligations.CrcStepIsBitSerial := by
  intro c b
  rw [crcStep_eq_crcStep_zero, bitStep, bitShifts_eight]

end

section
/-! The update bit by bit (R84). -/

namespace Sys2Proof.Machine

theorem getLsbD_foldByte (t : Byte) (k : Nat) : (foldByte t).getLsbD k = (t.getLsbD k ^^ t.getLsbD (4 + k)) := by
  simp [foldByte]

/-- A bit of the feedback, with the parts in the order in which the spec's table lists their taps. -/
theorem getLsbD_feedback (q : Byte) (k : Nat) :
    (feedback q).getLsbD k = ((zext16 q <<< 12).getLsbD k ^^ ((zext16 q <<< 5).getLsbD k ^^ (zext16 q).getLsbD k)) := by
  rw [feedback, BitVec.xor_comm, BitVec.xor_comm (zext16 q), BitVec.getLsbD_xor, BitVec.getLsbD_xor]

end Sys2Proof.Machine
end

section
open Sys2Proof Sys2Proof.Machine

/-- Settles O25: each of the sixteen bits against its row of taps. -/
theorem crcStepBitByBit : Obligations.CrcStepBitByBit := by
  refine ⟨fun c d n => ?_, fun c c' d d' => crcStep_congr⟩
  rw [crcStep_eq_feedback, BitVec.getLsbD_xor, getLsbD_feedback]
  simp only [BitVec.getLsbD_shiftLeft, getLsbD_zext16, getLsbD_foldByte, BitVec.getLsbD_xor, getLsbD_joinBytes, getLsbD_loByte,
    getLsbD_hiByte]
  fin_cases n <;> simp [xorTaps, crcStepTaps]

end

section
/-! Wider intermediates (R88): the wide wires before the left shifts are the 16-bit ones extended. -/

namespace Sys2Proof.Machine

variable {w : Nat} (hw : 16 ≤ w) (c : Word) (b : Byte)
include hw

theorem temp_setWidth : (subSteps c b).temp.setWidth w = (c.setWidth w >>> 8) ^^^ b.setWidth w := by
  have hb : (zext16 b).setWidth w = b.setWidth w := BitVec.setWidth_setWidth (by omega)
  rw [← BitVec.setWidth_ushiftRight hw, ← hb, ← BitVec.setWidth_xor]
  rfl

theorem quick3_setWidth :
    (subSteps c b).quick3.setWidth w = (subSteps c b).temp.setWidth w ^^^ ((subSteps c b).temp.setWidth w >>> 4) := by
  rw [← BitVec.setWidth_ushiftRight hw, ← BitVec.setWidth_xor]
  rfl

theorem crcStepAtWidth_eq_crcStep : crcStepAtWidth w c b = crcStep c b := by
  simp only [crcStepAtWidth, ← temp_setWidth hw, ← quick3_setWidth hw, BitVec.setWidth_xor, BitVec.setWidth_shiftLeft_of_le hw,
    BitVec.setWidth_setWidth_of_le _ hw, BitVec.setWidth_eq]
  rfl

end Sys2Proof.Machine
end

section
/-! The ranges of the wires (R82). -/

namespace Sys2Proof.Machine

theorem extractLsb'_ushiftRight {w : Nat} (v : BitVec w) (m start len : Nat) :
    (v >>> m).extractLsb' start len = v.extractLsb' (m + start) len := by
  apply BitVec.eq_of_getLsbD_eq
  intro k hk
  simp [Nat.add_assoc]

theorem extractLsb'_shiftLeft_self {w n len : Nat} (v : BitVec w) (h : n + len ≤ w) :
    (v <<< n).extractLsb' n len = v.extractLsb' 0 len := by
  apply BitVec.eq_of_getLsbD_eq
  intro k hk
  have hlt : n + k < w := by omega
  rw [BitVec.getLsbD_extractLsb', BitVec.getLsbD_extractLsb', BitVec.getLsbD_shiftLeft]
  simp [hk, hlt]

/-- What stands above a byte in its extension to 16 bits. -/
theorem extractLsb'_eight_zext16 (b : Byte) (len : Nat) : (zext16 b).extractLsb' 8 len = 0#len := by
  apply BitVec.eq_of_getLsbD_eq
  intro k hk
  simp [getLsbD_zext16]

/-- A byte shifted left lies in the bits its byte of ones is shifted to. -/
theorem zext16_shiftLeft_and_mask (q : Byte) (n : Nat) : (zext16 q <<< n) &&& (zext16 0xFF <<< n) = zext16 q <<< n := by
  have hones : (0xFF : Byte) = BitVec.allOnes 8 := by decide
  rw [← BitVec.shiftLeft_and_distrib, zext16, zext16, ← BitVec.setWidth_and, hones, BitVec.and_allOnes]

variable (c : Word) (b : Byte)

theorem SubSteps.quick3_eq_temp_xor : (subSteps c b).quick3 = (subSteps c b).temp ^^^ ((subSteps c b).temp >>> 4) := rfl

/-- Shifting `quick` left by 5 loses nothing. -/
theorem SubSteps.toNat_quick5_eq_mul : (subSteps c b).quick5.toNat = (subSteps c b).quick3.toNat * 2 ^ 5 := by
  have hbyte : (subSteps c b).quick3.toNat < 2 ^ 8 := by
    rw [SubSteps.quick3_eq, toNat_zext16]
    exact BitVec.isLt _
  rw [SubSteps.toNat_quick5, Nat.shiftLeft_eq, Nat.mod_eq_of_lt (by omega)]

end Sys2Proof.Machine
end

section
open Sys2Proof Sys2Proof.Machine

/-- Settles O28: the left shifts agree in the low 16 bits. -/
theorem anyWidthOfSixteenOrMoreAgrees : Obligations.AnyWidthOfSixteenOrMoreAgrees :=
  fun _ c b hw => crcStepAtWidth_eq_crcStep hw c b

/-- Settles O23: `temp` and `quick3` are bytes, and the later wires shift `quick3`. -/
theorem intermediatesStayInRange : Obligations.IntermediatesStayInRange := by
  intro c b
  have hmask5 : zext16 0xFF <<< 5 = 0x1FE0 := by decide
  have hmask12 : zext16 0xFF <<< 12 = 0xF000 := by decide
  refine ⟨SubSteps.temp_eq c b, SubSteps.acc2_eq c b, ?_, ?_, ?_, SubSteps.toNat_quick5_eq_mul c b, ?_,
    SubSteps.quick6_eq c b, ?_, ?_⟩
  · rw [SubSteps.quick3_eq, hiByte_zext16]
  · rw [SubSteps.quick3_eq_temp_xor, BitVec.extractLsb'_xor, extractLsb'_ushiftRight, SubSteps.temp_eq,
      extractLsb'_eight_zext16, BitVec.xor_zero]
  · rw [SubSteps.quick3_eq_temp_xor, BitVec.extractLsb'_xor, extractLsb'_ushiftRight]
  · rw [show (subSteps c b).quick5 = (subSteps c b).quick3 <<< 5 from rfl, SubSteps.quick3_eq, ← hmask5,
      zext16_shiftLeft_and_mask]
  · rw [SubSteps.quick6_eq, SubSteps.quick3_eq, ← hmask12, zext16_shiftLeft_and_mask]
  · rw [SubSteps.quick6_eq, extractLsb'_shiftLeft_self _ (by decide)]

end

section
/-! The text of a command is read back (R67): a mnemonic, and where the command has an operand a blank and two hexadecimal digits. -/

namespace Sys2Proof.Machine

/-! ## Characters -/

/-- A character that separates nothing: no blank, no comma and no start of a comment. -/
def plain (c : Char) : Bool := !isBlank c && c != ',' && c != ';'

variable {c : Char}

theorem isBlank_of_plain (h : plain c = true) : isBlank c = false := by
  simp only [plain, Bool.and_eq_true, Bool.not_eq_true'] at h
  obtain ⟨⟨hblank, -⟩, -⟩ := h
  exact hblank

theorem ne_comma_of_plain (h : plain c = true) : c ≠ ',' := by
  rintro rfl
  exact absurd h (by decide)

theorem ne_semicolon_of_plain (h : plain c = true) : c ≠ ';' := by
  rintro rfl
  exact absurd h (by decide)

theorem plain_hexChar {n : Nat} (h : n < 16) : plain (hexChar n) = true := by
  interval_cases n <;> decide

theorem hexDigit_hexChar {n : Nat} (h : n < 16) : hexDigit (hexChar n) = some n := by
  interval_cases n <;> decide

/-! ## Blanks and commas -/

theorem dropWhile_isBlank_eq_self {cs : List Char} (h : ∀ c ∈ cs.head?, isBlank c = false) : cs.dropWhile isBlank = cs := by
  cases cs with
  | nil => rfl
  | cons c cs => simp [h c rfl]

/-- A text with no blank at either end has nothing to trim. -/
theorem trimBlanks_eq_self {cs : List Char} (hfirst : ∀ c ∈ cs.head?, isBlank c = false)
    (hlast : ∀ c ∈ cs.getLast?, isBlank c = false) : trimBlanks cs = cs := by
  rw [trimBlanks, dropWhile_isBlank_eq_self hfirst, dropWhile_isBlank_eq_self (by simpa using hlast), List.reverse_reverse]

theorem trimBlanks_blank_cons (hc : isBlank c = true) (cs : List Char) : trimBlanks (c :: cs) = trimBlanks cs := by
  simp [trimBlanks, hc]

/-- A text with no comma is one piece. -/
theorem splitCommas_eq_singleton {cs : List Char} (h : ∀ c ∈ cs, c ≠ ',') : splitCommas cs = [cs] := by
  induction cs with
  | nil => rfl
  | cons c cs ih =>
    obtain ⟨hc, hcs⟩ := List.forall_mem_cons.1 h
    simp [splitCommas, hc, ih hcs]

/-! ## A printed byte -/

theorem toNat_div_sixteen_lt (b : Byte) : b.toNat / 16 < 16 := Nat.div_lt_of_lt_mul b.isLt

theorem plain_of_mem_printByte {b : Byte} (h : c ∈ printByte b) : plain c = true := by
  simp only [printByte, List.mem_cons, List.not_mem_nil, or_false] at h
  rcases h with rfl | rfl | rfl | rfl
  · decide
  · decide
  · exact plain_hexChar (toNat_div_sixteen_lt b)
  · exact plain_hexChar (Nat.mod_lt _ (by decide))

theorem readNumeral_printByte (b : Byte) : readNumeral (printByte b) = some b.toNat := by
  have hhigh := hexDigit_hexChar (toNat_div_sixteen_lt b)
  have hlow : hexDigit (hexChar (b.toNat % 16)) = some (b.toNat % 16) := hexDigit_hexChar (Nat.mod_lt _ (by decide))
  simp [printByte, readNumeral, hhigh, hlow, Nat.div_add_mod]

theorem trimBlanks_printByte (b : Byte) : trimBlanks (printByte b) = printByte b :=
  trimBlanks_eq_self (fun _ h => isBlank_of_plain (plain_of_mem_printByte (List.mem_of_mem_head? h)))
    fun _ h => isBlank_of_plain (plain_of_mem_printByte (List.mem_of_getLast? h))

theorem readOperands_printByte (b : Byte) : readOperands (printByte b) = some [b.toNat] := by
  have hne : printByte b ≠ [] := List.cons_ne_nil _ _
  have hpieces := splitCommas_eq_singleton fun _ h => ne_comma_of_plain (plain_of_mem_printByte (b := b) h)
  simp [readOperands, hne, hpieces, readNumerals, trimBlanks_printByte, readNumeral_printByte]

/-! ## A line with an operand -/

section
variable {mnemonic : List Char} (hmnemonic : ∀ c ∈ mnemonic, plain c = true) (hne : mnemonic ≠ [])
include hmnemonic

theorem dropComment_operandLine (b : Byte) :
    dropComment (mnemonic ++ ' ' :: printByte b) = mnemonic ++ ' ' :: printByte b := by
  refine List.takeWhile_eq_self_iff.2 fun c hc => ?_
  have hsemi : c ≠ ';' := by
    rcases List.mem_append.1 hc with hc | hc
    · exact ne_semicolon_of_plain (hmnemonic c hc)
    · rcases List.mem_cons.1 hc with rfl | hc
      · decide
      · exact ne_semicolon_of_plain (plain_of_mem_printByte hc)
  simpa using hsemi

include hne in
theorem trimBlanks_operandLine (b : Byte) :
    trimBlanks (mnemonic ++ ' ' :: printByte b) = mnemonic ++ ' ' :: printByte b := by
  refine trimBlanks_eq_self (fun c hc => ?_) fun c hc => ?_
  · rw [List.head?_append_of_ne_nil _ hne] at hc
    exact isBlank_of_plain (hmnemonic c (List.mem_of_mem_head? hc))
  · have hlast : (mnemonic ++ ' ' :: printByte b).getLast? = (printByte b).getLast? := by
      simp [printByte]
    exact isBlank_of_plain (plain_of_mem_printByte (List.mem_of_getLast? (hlast ▸ hc)))

/-- The mnemonic of the line ends at the blank. -/
theorem takeWhile_operandLine (b : Byte) :
    (mnemonic ++ ' ' :: printByte b).takeWhile (fun c => !isBlank c) = mnemonic := by
  rw [List.takeWhile_append_of_pos fun c hc => by simpa using isBlank_of_plain (hmnemonic c hc)]
  exact List.append_nil _

theorem dropWhile_operandLine (b : Byte) :
    (mnemonic ++ ' ' :: printByte b).dropWhile (fun c => !isBlank c) = ' ' :: printByte b := by
  rw [List.dropWhile_append_of_pos fun c hc => by simpa using isBlank_of_plain (hmnemonic c hc)]
  rfl

include hne in
/-- A mnemonic, a blank and a printed byte are read as the line of that mnemonic and that byte. -/
theorem readLine_operandLine {b : Byte} {l : AsmLine} (hl : lineOf mnemonic [b.toNat] = .ok l) (hwf : l.wf = true) :
    readLine (mnemonic ++ ' ' :: printByte b) = .ok (some l) := by
  have hbody : mnemonic ++ ' ' :: printByte b ≠ [] := by simp
  have hoperands : trimBlanks (' ' :: printByte b) = printByte b :=
    (trimBlanks_blank_cons rfl _).trans (trimBlanks_printByte b)
  simp only [readLine, dropComment_operandLine hmnemonic, trimBlanks_operandLine hmnemonic hne, if_neg hbody,
    dropWhile_operandLine hmnemonic, takeWhile_operandLine hmnemonic, hoperands, readOperands_printByte, hl, hwf, if_true]

end

theorem byteNumeral_toNat (b : Byte) : byteNumeral b.toNat = true := by
  simpa [byteNumeral, Config.dataWidth] using b.isLt

theorem assembleLine_of_wf {l : AsmLine} (h : l.wf = true) : assembleLine l = some ((expandLine l).map encode) := if_pos h

/-- The line a command is printed as. -/
def asmLineOf : Instr → AsmLine
  | .reset => .reset
  | .initUpdate b => .initUpdate b.toNat
  | .init => .init
  | .update b => .update b.toNat
  | .nop => .nop

theorem asmLineOf_wf (i : Instr) : (asmLineOf i).wf = true := by
  cases i with
  | initUpdate b | update b => exact byteNumeral_toNat b
  | reset | init | nop => rfl

@[simp] theorem expandLine_asmLineOf (i : Instr) : expandLine (asmLineOf i) = [i] := by
  cases i <;> simp [asmLineOf, expandLine]

theorem readLine_printInstr (i : Instr) : readLine (printInstr i) = .ok (some (asmLineOf i)) := by
  cases i with
  | initUpdate b =>
    exact readLine_operandLine (mnemonic := ['I', 'N', 'I', 'T', '_', 'U', 'P', 'D', 'A', 'T', 'E'])
      (by simp [plain, isBlank]) (by simp) rfl (asmLineOf_wf (.initUpdate b))
  | update b =>
    exact readLine_operandLine (mnemonic := ['U', 'P', 'D', 'A', 'T', 'E'])
      (by simp [plain, isBlank]) (by simp) rfl (asmLineOf_wf (.update b))
  | reset | init | nop => decide

end Sys2Proof.Machine
end

section
open Sys2Proof Sys2Proof.Machine

/-- Settles O53: the printed line is read back as the command's own line, which is well formed. -/
theorem printedCommandsReadBack : Obligations.PrintedCommandsReadBack :=
  fun i => ⟨asmLineOf i, readLine_printInstr i, expandLine_asmLineOf i, by simp [assembleLine_of_wf (asmLineOf_wf i)]⟩

/-- Settles O8: the twelve words, bit by bit. -/
theorem writtenOutWordsDecode : Obligations.WrittenOutWordsDecode := by
  unfold Obligations.WrittenOutWordsDecode
  decide

end
